-- ==== Sys2Proof/Word.lean ====
section
/-! DEFINITION. The word types of the LS-8: a byte, and a register index. -/

namespace Sys2Proof

/-- A register, memory or flags value: 8 bits, unsigned (00_scope.md R7, R10). -/
abbrev Byte := BitVec 8

/-- The index of a general register R0..R7 (10_state.md R20); also the number of an interrupt, a bit
position 0..7 of IM and IS (10_state.md R26, R27). -/
abbrev RegIdx := Fin 8

end Sys2Proof
end

