-- ==== Sys2Proof/Config.lean ====
section
/-! DEFINITION. The configuration: the parameters of 00_scope.md R8, and the one free value of the model, the
environment's draw at a poll. -/

namespace Sys2Proof

/-- A handler identity: one per row of the opcode map (30_encoding.md R64). AND, OR, XOR and NOT are written
`bitAnd`, `bitOr`, `bitXor`, `bitNot`. -/
inductive Op where
  | ldi | ld | st | prn | pra | push | pop | call | ret | jmp | jeq | jne
  | add | sub | mul | mod | cmp | bitNot | inc | dec | addi | iret | hlt
  | bitAnd | bitOr | bitXor | shl | shr
  deriving DecidableEq, Repr

/-- Every handler, in the order of 30_encoding.md R64. -/
def Op.all : List Op :=
  [.ldi, .ld, .st, .prn, .pra, .push, .pop, .call, .ret, .jmp, .jeq, .jne,
   .add, .sub, .mul, .mod, .cmp, .bitNot, .inc, .dec, .addi, .iret, .hlt,
   .bitAnd, .bitOr, .bitXor, .shl, .shr]

/-- The five operations that are dispatched only when ALU_BITWISE_DISPATCHED is true (30_encoding.md R64,
41_alu.md section 3). -/
def Op.isBitwise (op : Op) : Bool :=
  op ∈ [Op.bitAnd, .bitOr, .bitXor, .shl, .shr]

/-- What the environment gives at one poll: `tick`, whether the timer period has elapsed, and `key`, no key or
one character code (60_exceptions.md R204 to R206). -/
structure Draw where
  tick : Bool
  key : Option Byte
  deriving DecidableEq, Repr, Inhabited

/-- The poll at which nothing happens. -/
def Draw.quiet : Draw := { tick := false, key := none }

/-- The configuration parameters of 00_scope.md R8, "which a model takes as arguments". They are fixed for a
machine; State carries them so that every statement is about every value of them (log 6).
`opcodeMap` is OPCODE_MAP without the row of ADDI, whose byte is `opcAddi` (OPC_ADDI).
`timerPeriodSeconds` is TIMER_PERIOD: nominal, "no rule depends on it", and nothing reads it.
`highVectors` is VEC(i) for i = 2..7. -/
structure Config where
  opcodeMap : List (Byte × Op)
  opcAddi : Byte
  aluBitwiseDispatched : Bool
  nestedInterruptLatch : Bool
  timerPeriodSeconds : Nat
  highVectors : Vector Byte 6
  deriving DecidableEq, Repr

/-- Whether the handler `op` is in the dispatcher under these parameters (30_encoding.md R64). -/
def Config.dispatches (c : Config) (op : Op) : Bool :=
  !op.isBitwise || c.aluBitwiseDispatched

/-- FREE VALUE (log 7): the draw of the `n`-th poll once the scheduled draws of a state are used up. "Any sequence
of draws is admitted, and no rule assumes one" (60_exceptions.md R205): it has no body, so nothing can be
proved about it. -/
opaque Config.freeDraw : Nat → Draw

end Sys2Proof
end

