-- ==== Sys2Proof/Syntax.lean ====
section
/-! DEFINITION. The instructions: one constructor per row of spec/opcode_table.json. -/

namespace Sys2Proof

/-- An instruction with its operand bytes (30_encoding.md R61). A register operand is a whole byte (R62); the
bytes 8..255 are not register indices, and executing such an instruction is the fatal error OutOfRange
(40_dispatch.md R84), so they are terms here and `Instr.WellFormed` says which are legal. -/
inductive Instr where
  | ldi (r imm8 : Byte)
  | ld (a b : Byte)
  | st (a b : Byte)
  | prn (r : Byte)
  | pra (r : Byte)
  | push (r : Byte)
  | pop (r : Byte)
  | call (r : Byte)
  | ret
  | jmp (r : Byte)
  | jeq (r : Byte)
  | jne (r : Byte)
  | add (a b : Byte)
  | sub (a b : Byte)
  | mul (a b : Byte)
  | mod (a b : Byte)
  | cmp (a b : Byte)
  | bitNot (r : Byte)
  | inc (r : Byte)
  | dec (r : Byte)
  | addi (r imm8 : Byte)
  | iret
  | hlt
  | bitAnd (a b : Byte)
  | bitOr (a b : Byte)
  | bitXor (a b : Byte)
  | shl (a b : Byte)
  | shr (a b : Byte)
  deriving DecidableEq, Repr

/-- The handler of an instruction. -/
def Instr.op : Instr → Op
  | .ldi _ _ => .ldi
  | .ld _ _ => .ld
  | .st _ _ => .st
  | .prn _ => .prn
  | .pra _ => .pra
  | .push _ => .push
  | .pop _ => .pop
  | .call _ => .call
  | .ret => .ret
  | .jmp _ => .jmp
  | .jeq _ => .jeq
  | .jne _ => .jne
  | .add _ _ => .add
  | .sub _ _ => .sub
  | .mul _ _ => .mul
  | .mod _ _ => .mod
  | .cmp _ _ => .cmp
  | .bitNot _ => .bitNot
  | .inc _ => .inc
  | .dec _ => .dec
  | .addi _ _ => .addi
  | .iret => .iret
  | .hlt => .hlt
  | .bitAnd _ _ => .bitAnd
  | .bitOr _ _ => .bitOr
  | .bitXor _ _ => .bitXor
  | .shl _ _ => .shl
  | .shr _ _ => .shr

/-- The operand bytes that 30_encoding.md R61 names register indices, byte 1 before byte 2. -/
def Instr.registerOperands : Instr → List Byte
  | .ldi r _ => [r]
  | .ld a b => [a, b]
  | .st a b => [a, b]
  | .prn r => [r]
  | .pra r => [r]
  | .push r => [r]
  | .pop r => [r]
  | .call r => [r]
  | .ret => []
  | .jmp r => [r]
  | .jeq r => [r]
  | .jne r => [r]
  | .add a b => [a, b]
  | .sub a b => [a, b]
  | .mul a b => [a, b]
  | .mod a b => [a, b]
  | .cmp a b => [a, b]
  | .bitNot r => [r]
  | .inc r => [r]
  | .dec r => [r]
  | .addi r _ => [r]
  | .iret => []
  | .hlt => []
  | .bitAnd a b => [a, b]
  | .bitOr a b => [a, b]
  | .bitXor a b => [a, b]
  | .shl a b => [a, b]
  | .shr a b => [a, b]

end Sys2Proof
end

