-- ==== Sys2Proof/WellFormed.lean ====
section
/-! DEFINITION. The checks: which instructions and which configurations are legal. -/

namespace Sys2Proof

/-- Every register operand is an index 0..7 (30_encoding.md R62). -/
def Instr.registersLegal (i : Instr) : Bool :=
  i.registerOperands.all fun b => decide (b.toNat < 8)

/-- An instruction of this machine: its register operands are legal and its handler is dispatched
(30_encoding.md R62, R64). An immediate has no check: all 256 values are legal (R67). -/
def Instr.WellFormed (c : Config) (i : Instr) : Bool :=
  i.registersLegal && c.dispatches i.op

/-- The parameters make one machine: "Each opcode byte selects exactly one row" (30_encoding.md R64), OPCODE_MAP is
injective and OPC_ADDI is a "byte not otherwise assigned" (00_scope.md R8), and every handler other than
ADDI has a row. DESIGN CHOICE (log 2): the byte of a bitwise row counts as assigned even where ALU_BITWISE_DISPATCHED is
false and the row is not in the dispatcher, so OPC_ADDI may not be that byte; R8 and D2 leave this open. -/
def Config.wf (c : Config) : Bool :=
  decide (c.opcodeMap.map Prod.fst).Nodup
    && decide (c.opcodeMap.map Prod.snd).Nodup
    && decide (c.opcAddi ∉ c.opcodeMap.map Prod.fst)
    && decide (Op.addi ∉ c.opcodeMap.map Prod.snd)
    && Op.all.all fun op => op == .addi || decide (op ∈ c.opcodeMap.map Prod.snd)

end Sys2Proof
end

