-- ==== Sys2Proof/Decode.lean ====
section
/-! DEFINITION. The opcode map, the decoder (total on any bytes, rejecting by name) and the encoder. -/

namespace Sys2Proof

/-- The rows of 30_encoding.md R64 but for ADDI, in its order. The byte values are the LS-8's, which the spec
supplies from general knowledge (92_eei_decisions.md D1; log 1). -/
def opcodeTable : List (Byte × Op) :=
  [(0x82, .ldi), (0x83, .ld), (0x84, .st), (0x47, .prn), (0x48, .pra), (0x45, .push), (0x46, .pop),
   (0x50, .call), (0x11, .ret), (0x54, .jmp), (0x55, .jeq), (0x56, .jne)]
  ++ [(0xA0, .add), (0xA1, .sub), (0xA2, .mul), (0xA4, .mod), (0xA7, .cmp), (0x69, .bitNot), (0x65, .inc),
   (0x66, .dec), (0x13, .iret), (0x01, .hlt)]
  ++ [(0xA8, .bitAnd), (0xAA, .bitOr), (0xAB, .bitXor), (0xAC, .shl), (0xAD, .shr)]

/-- The parameters at the values this spec fixes (00_scope.md R8; log 1 to 5): OPC_ADDI = 0xAF,
ALU_BITWISE_DISPATCHED true, NESTED_INTERRUPT_LATCH false, TIMER_PERIOD 1 second, VEC(i) = 0xF8 + i. -/
def specConfig : Config where
  opcodeMap := opcodeTable
  opcAddi := 0xAF
  aluBitwiseDispatched := true
  nestedInterruptLatch := false
  timerPeriodSeconds := 1
  highVectors := #v[0xFA, 0xFB, 0xFC, 0xFD, 0xFE, 0xFF]

/-- The four instruction formats of 30_encoding.md R61. -/
inductive Format where
  | f0 | f1r | f2rr | f2ri
  deriving DecidableEq, Repr

/-- The format column of 30_encoding.md R64. -/
def Op.format : Op → Format
  | .ret => .f0
  | .iret => .f0
  | .hlt => .f0
  | .prn => .f1r
  | .pra => .f1r
  | .push => .f1r
  | .pop => .f1r
  | .call => .f1r
  | .jmp => .f1r
  | .jeq => .f1r
  | .jne => .f1r
  | .bitNot => .f1r
  | .inc => .f1r
  | .dec => .f1r
  | .ld => .f2rr
  | .st => .f2rr
  | .add => .f2rr
  | .sub => .f2rr
  | .mul => .f2rr
  | .mod => .f2rr
  | .cmp => .f2rr
  | .bitAnd => .f2rr
  | .bitOr => .f2rr
  | .bitXor => .f2rr
  | .shl => .f2rr
  | .shr => .f2rr
  | .ldi => .f2ri
  | .addi => .f2ri

/-- The number of operand bytes of a format (30_encoding.md R60, R61). -/
def Format.operandCount : Format → Nat
  | .f0 => 0
  | .f1r => 1
  | .f2rr => 2
  | .f2ri => 2

/-- The number of operand bytes of a handler; its instructions are one byte longer (30_encoding.md R64). -/
def Op.operandCount (op : Op) : Nat := op.format.operandCount

/-- The "sets PC" column of 30_encoding.md R64, HLT (which sets no pc and does not advance) counted with it: these
instructions do not run the default advance. -/
def Op.ownsPc (op : Op) : Bool :=
  op ∈ [Op.call, .ret, .jmp, .jeq, .jne, .iret, .hlt]

/-- The row of an opcode byte, or none where it is unassigned (30_encoding.md R64, R66). -/
def lookup (c : Config) (b : Byte) : Option Op :=
  if b = c.opcAddi then some .addi
  else match c.opcodeMap.lookup b with
    | none => none
    | some op => if c.dispatches op then some op else none

/-- The opcode byte of a handler, or none where the handler is not dispatched. -/
def opcodeOf (c : Config) (op : Op) : Option Byte :=
  if op = .addi then some c.opcAddi
  else if c.dispatches op then (c.opcodeMap.find? fun row => row.2 == op).map Prod.fst
  else none

/-- The instruction of a handler with operand bytes 1 and 2; a format without an operand ignores its byte
(30_encoding.md R61). -/
def assemble (op : Op) (x y : Byte) : Instr :=
  match op with
  | .ldi => .ldi x y
  | .ld => .ld x y
  | .st => .st x y
  | .prn => .prn x
  | .pra => .pra x
  | .push => .push x
  | .pop => .pop x
  | .call => .call x
  | .ret => .ret
  | .jmp => .jmp x
  | .jeq => .jeq x
  | .jne => .jne x
  | .add => .add x y
  | .sub => .sub x y
  | .mul => .mul x y
  | .mod => .mod x y
  | .cmp => .cmp x y
  | .bitNot => .bitNot x
  | .inc => .inc x
  | .dec => .dec x
  | .addi => .addi x y
  | .iret => .iret
  | .hlt => .hlt
  | .bitAnd => .bitAnd x y
  | .bitOr => .bitOr x y
  | .bitXor => .bitXor x y
  | .shl => .shl x y
  | .shr => .shr x y

/-- Why bytes are not an instruction. -/
inductive DecodeError where
  /-- There is no byte to decode. -/
  | noByte
  /-- The opcode byte has no row (30_encoding.md R66). -/
  | unassigned (opcode : Byte)
  /-- Operand byte `k` (1 or 2) is not there (40_dispatch.md R83). -/
  | missingOperand (k : Nat)
  deriving DecidableEq, Repr

/-- The operand bytes of a handler, read first to last, and the bytes after them. Operand values are not
examined (30_encoding.md R68). -/
def decodeOperands (op : Op) (rest : List Byte) : Except DecodeError (Instr × List Byte) :=
  match op.operandCount, rest with
  | 0, rest => .ok (assemble op 0 0, rest)
  | 1, x :: rest => .ok (assemble op x 0, rest)
  | _, x :: y :: rest => .ok (assemble op x y, rest)
  | _, [] => .error (.missingOperand 1)
  | _, [_] => .error (.missingOperand 2)

/-- The decoder: the first instruction of a list of bytes and the bytes after it, or the reason there is
none. The length comes from the opcode byte alone (30_encoding.md R60, R68; 40_dispatch.md R82, R83). -/
def decode (c : Config) : List Byte → Except DecodeError (Instr × List Byte)
  | [] => .error .noByte
  | b :: rest =>
    match lookup c b with
    | none => .error (.unassigned b)
    | some op => decodeOperands op rest

/-- The operand bytes of an instruction, in the order of 30_encoding.md R61. -/
def Instr.operandBytes : Instr → List Byte
  | .ldi r imm8 => [r, imm8]
  | .ld a b => [a, b]
  | .st a b => [a, b]
  | .prn r => [r]
  | .pra r => [r]
  | .push r => [r]
  | .pop r => [r]
  | .call r => [r]
  | .ret => []
  | .jmp r => [r]
  | .jeq r => [r]
  | .jne r => [r]
  | .add a b => [a, b]
  | .sub a b => [a, b]
  | .mul a b => [a, b]
  | .mod a b => [a, b]
  | .cmp a b => [a, b]
  | .bitNot r => [r]
  | .inc r => [r]
  | .dec r => [r]
  | .addi r imm8 => [r, imm8]
  | .iret => []
  | .hlt => []
  | .bitAnd a b => [a, b]
  | .bitOr a b => [a, b]
  | .bitXor a b => [a, b]
  | .shl a b => [a, b]
  | .shr a b => [a, b]

/-- The encoder: the bytes of an instruction, or none where its handler has no opcode byte (30_encoding.md R61,
R64). -/
def encode (c : Config) (i : Instr) : Option (List Byte) :=
  (opcodeOf c i.op).map fun b => b :: i.operandBytes

/-- The bytes of an instruction given as one number, bit 0 the least significant bit of its first byte, at
increasing addresses (20_memory.md R43); bits from `nbits` up are 0. Three bytes, the longest
instruction (30_encoding.md R60). -/
def bytesOfWord (nbits w : Nat) : List Byte :=
  let v := w % 2 ^ nbits
  [BitVec.ofNat 8 v, BitVec.ofNat 8 (v / 2 ^ 8), BitVec.ofNat 8 (v / 2 ^ 16)]

/-- The instruction the decoder reads from a word of spec/opcode_table.json, at the parameters of this spec. -/
def decodeTableWord (nbits w : Nat) : Option Instr :=
  match decode specConfig (bytesOfWord nbits w) with
  | .ok (i, _) => some i
  | .error _ => none

end Sys2Proof
end

