-- ==== Sys2Proof/Machine/State.lean ====
section
/-! DEFINITION. The state of the LS-8 execution engine as plain data, the reasons a step can stop, and reset. -/

namespace Sys2Proof.Machine

/-- The value that left its bounds in an OutOfRange error (60_exceptions.md R200, column "info recorded"). -/
inductive OutOfRange where
  /-- A memory address outside 0..255 (20_memory.md R41; operand fetch, 40_dispatch.md R83). -/
  | addr (a : Int)
  /-- A register operand byte above 7 (30_encoding.md R62). -/
  | regIndex (i : Nat)
  /-- A stack pointer below 0 or above 255 (43_stack.md R160, R161). -/
  | sp (t : Int)
  /-- A computed pc above 255 (40_dispatch.md R86; 44_control.md R170, R173, R174). -/
  | pc (t : Int)
  deriving DecidableEq, Repr

/-- The three kinds of fatal error with the info each records (60_exceptions.md R200). -/
inductive FatalError where
  | unsupportedOperation (opcode : Byte) (pc : Byte)
  | divisionByZero (divisorReg : RegIdx)
  | outOfRange (what : OutOfRange)
  deriving DecidableEq, Repr

/-- The run state (10_state.md R29). `failed` is "`Halted` (failed)"; it carries the kind and its info
(40_dispatch.md R88). -/
inductive Status where
  | idle
  | running
  | halted
  | failed (e : FatalError)
  deriving DecidableEq, Repr

/-- Which instruction emitted a console record (42_data_io.md R145). -/
inductive OutKind where
  | prn | pra
  deriving DecidableEq, Repr

/-- One record of the console output port (42_data_io.md R145). -/
structure OutRecord where
  kind : OutKind
  value : Byte
  deriving DecidableEq, Repr

/-- What the host may do to an Idle block (60_exceptions.md R218). -/
inductive HostAction where
  /-- Write the image bytes from address 0 (70_reset_and_hazards.md R251). -/
  | preload (image : List Byte)
  /-- Move Idle to Running (40_dispatch.md R80). -/
  | start
  deriving DecidableEq, Repr

/-- The 256 cells, sparse: (address, byte) pairs in rising order of address, no byte equal to what an unlisted
address reads as (`Memory.unlisted`). `Memory.wf` says so (log 26). -/
abbrev Memory := List Host.Cell

/-- The complete state: the tuple of 10_state.md (`regs` to `latch`), and the model's own four fields: the
parameters (log 6), the host's pending actions (log 8), and the environment's scheduled draws with the number of
polls made (log 7). -/
structure State where
  /-- R0..R7, 10_state.md R20; R5 = IM, R6 = IS, R7 = SP (R21). -/
  regs : Vector Byte 8
  /-- 10_state.md R23. -/
  pc : Byte
  /-- 10_state.md R24: all 8 bits are stored. -/
  fl : Byte
  /-- 20_memory.md R40. -/
  mem : Memory
  /-- 10_state.md R29. -/
  status : Status
  /-- 10_state.md R30: the records in the order they were emitted. -/
  out : List OutRecord
  /-- 10_state.md R31(c): in use only when NESTED_INTERRUPT_LATCH is true (60_exceptions.md R212). -/
  latch : Bool
  /-- The model's own: the parameters of 00_scope.md R8. No step changes them. -/
  config : Config
  /-- The model's own: the host's actions while Idle, oldest first. -/
  host : List HostAction
  /-- The model's own: the environment's next draws, the next poll's first. -/
  draws : List Draw
  /-- The model's own: how many polls have been made. -/
  polls : Nat
  deriving DecidableEq, Repr

/-- Why a step has no next state. A fatal error of the spec is NOT here: the cycle that raises one answers a next
state whose status is `failed` (40_dispatch.md R88; log 9). -/
inductive Fault where
  /-- Raised by `step` alone, in a block that has halted: "No transition leaves `Halted`" (10_state.md R29); treatment
  "stuck (no further step)" (93_implementation_defined.md part A). Safe: the hardware runs no cycle either. -/
  | runHalted
  /-- Raised by `step` alone, in a block that has failed with `e`: "nor does any leave Failed" (40_dispatch.md R80).
  Safe: the hardware runs no cycle either. -/
  | runFailed (e : FatalError)
  deriving DecidableEq, Repr

/-- What the model gives no meaning to. -/
inductive Refusal where
  /-- Raised by an arm of `exec` whose instruction has no meaning yet; no arm is one now. Safe. -/
  | notModelled (mnemonic : String)
  /-- Raised by the host's preload of an image of `n` > 256 bytes: "the host refuses them; they never reach the
  block" (92_eei_decisions.md D22). Safe: nothing is claimed of such images. -/
  | imageTooLong (n : Nat)
  deriving DecidableEq, Repr

/-- The state after construction, the only reset (70_reset_and_hazards.md R250): every value of 10_state.md R32. The
parameters are the spec's (00_scope.md R8). The host has not acted and the environment has no scheduled draw:
DESIGN CHOICE, log 7 and log 8. -/
def State.reset : State where
  regs := #v[0, 0, 0, 0, 0, 0, 0, 0xF4]
  pc := 0
  fl := 0
  mem := []
  status := .idle
  out := []
  latch := false
  config := specConfig
  host := []
  draws := []
  polls := 0

end Sys2Proof.Machine
end

