-- ==== Sys2Proof/Machine/Ops.lean ====
section
/-! DEFINITION. The named operations over registers, memory, the stack and the console; raising a fatal error; delivering
an interrupt and returning from one. An operation answers `.ok` with the state it leaves, or `.error` with the
Failed state of the statement that raised (40_dispatch.md R88). -/

namespace Sys2Proof.Machine

/-- IM is R5 (10_state.md R21). -/
abbrev IM : RegIdx := 5
/-- IS is R6 (10_state.md R21). -/
abbrev IS : RegIdx := 6
/-- SP is R7 (10_state.md R21). -/
abbrev SP : RegIdx := 7

/-- KEY_CELL (00_scope.md R7). -/
def keyCell : Nat := 0xF4

/-- `trunc8`: reduce an exact integer to a byte (00_scope.md R11). -/
def trunc8 (v : Int) : Byte := BitVec.ofInt 8 v

/-! ## Registers and pc -/

/-- `x[r]` (00_scope.md R12). -/
def State.reg (s : State) (r : RegIdx) : Byte := s.regs[r]

/-- `x[r] <- v` (00_scope.md R12). Every register is writable, none is hardwired (10_state.md R22). -/
def State.setReg (s : State) (r : RegIdx) (v : Byte) : State := { s with regs := s.regs.set r v }

/-- `pc <- target` (00_scope.md R12). -/
def State.setPc (s : State) (v : Byte) : State := { s with pc := v }

/-- `FL <- v` (00_scope.md R12). -/
def State.setFl (s : State) (v : Byte) : State := { s with fl := v }

/-- `status <- st` (00_scope.md R12). -/
def State.setStatus (s : State) (st : Status) : State := { s with status := st }

/-! ## Memory -/

/-- What an address with no entry reads as: memory is zero at construction (10_state.md R32). -/
def Memory.unlisted : Byte := 0

/-- The byte at an address. -/
def Memory.read : Memory → Nat → Byte
  | [], _ => Memory.unlisted
  | (k, v) :: m, a => if k = a then v else Memory.read m a

/-- Put an entry at its place in the order. -/
def Memory.insert : Memory → Nat → Byte → Memory
  | [], a, v => [(a, v)]
  | (k, w) :: m, a, v => if a < k then (a, v) :: (k, w) :: m else (k, w) :: Memory.insert m a v

/-- Write a byte: the entry of `a` goes, and comes back unless the byte is what an unlisted address reads as. -/
def Memory.write (m : Memory) (a : Nat) (v : Byte) : Memory :=
  let others := m.filter fun c => c.1 != a
  if v = Memory.unlisted then others else Memory.insert others a v

/-- The canonical form: addresses strictly rise and lie in 0..255, and no entry is what an unlisted address reads
as (log 26). -/
def Memory.wf (m : Memory) : Bool :=
  decide (m.Pairwise fun x y => x.1 < y.1) && m.all fun c => decide (c.1 < 256) && c.2 != Memory.unlisted

/-- The byte at address `a`. -/
def State.readMem (s : State) (a : Nat) : Byte := s.mem.read a

/-- Write `v` at address `a`. -/
def State.writeMem (s : State) (a : Nat) (v : Byte) : State := { s with mem := s.mem.write a v }

/-! ## Raising a fatal error -/

/-- The state a fatal error leaves: what was written stands, status is Failed (40_dispatch.md R88). -/
def State.fail (s : State) (e : FatalError) : State := s.setStatus (.failed e)

/-- `raise K(info)` (40_dispatch.md R88). -/
def raise {α : Type} (e : FatalError) (s : State) : Except State α := .error (s.fail e)

/-- The end of a cycle: the state it left, whether or not a statement raised (40_dispatch.md R88; log 9). -/
def complete : Except State State → Host.Outcome State Fault Refusal
  | .ok s => .next s
  | .error s => .next s

/-- `MemRead(a, 1)` (20_memory.md R41). -/
def memRead (a : Int) (s : State) : Except State Byte :=
  if a < 0 ∨ 255 < a then raise (.outOfRange (.addr a)) s else .ok (s.readMem a.toNat)

/-- `MemWrite(a, 1, v)` (20_memory.md R41). -/
def memWrite (a : Int) (v : Byte) (s : State) : Except State State :=
  if a < 0 ∨ 255 < a then raise (.outOfRange (.addr a)) s else .ok (s.writeMem a.toNat v)

/-- `advance(n)`, the default pc update of an instruction with `n` operand bytes (40_dispatch.md R86). -/
def advance (n : Nat) (s : State) : Except State State :=
  let t : Int := (s.pc.toNat : Int) + 1 + n
  if 255 < t then raise (.outOfRange (.pc t)) s else .ok (s.setPc (trunc8 t))

/-! ## The stack -/

/-- The first half of a push: SP goes down by one, and never below 0 (43_stack.md R160; log 12). -/
def decSp (s : State) : Except State State :=
  let t : Int := ((s.reg SP).toNat : Int) - 1
  if t < 0 then raise (.outOfRange (.sp t)) s else .ok (s.setReg SP (trunc8 t))

/-- The second half of a pop: SP goes up by one, and never above 255 (43_stack.md R161; log 12). -/
def incSp (s : State) : Except State State :=
  let t : Int := ((s.reg SP).toNat : Int) + 1
  if 255 < t then raise (.outOfRange (.sp t)) s else .ok (s.setReg SP (trunc8 t))

/-- `push(v)` (43_stack.md R160). -/
def push (v : Byte) (s : State) : Except State State := do
  let s ← decSp s
  memWrite (s.reg SP).toNat v s

/-- `pop()` (43_stack.md R161): the byte and the state after. -/
def pop (s : State) : Except State (Byte × State) := do
  let v ← memRead (s.reg SP).toNat s
  let s ← incSp s
  return (v, s)

/-- `x[r] <- pop()`. -/
def popReg (r : RegIdx) (s : State) : Except State State := do
  let (v, s) ← pop s
  return s.setReg r v

/-! ## The console -/

/-- `emit(kind, v)` (42_data_io.md R145): records are never removed or reordered. -/
def emit (kind : OutKind) (v : Byte) (s : State) : State := { s with out := s.out ++ [⟨kind, v⟩] }

/-! ## Taking an interrupt and returning from it -/

/-- The vector slot of interrupt `i` (20_memory.md R47, 60_exceptions.md R202): 0xF8 for the timer, 0xF9 for the
keyboard, the parameter VEC(i) for 2..7 (log 5). -/
def vectorAddress (c : Config) (i : RegIdx) : Nat :=
  match i with
  | 0 => 0xF8
  | 1 => 0xF9
  | 2 => c.highVectors[0].toNat
  | 3 => c.highVectors[1].toNat
  | 4 => c.highVectors[2].toNat
  | 5 => c.highVectors[3].toNat
  | 6 => c.highVectors[4].toNat
  | 7 => c.highVectors[5].toNat

/-- Bit `i` of IS cleared: `x[6] & (255 - (1 << i))` (60_exceptions.md R208). -/
def clearPending (i : RegIdx) (s : State) : State :=
  s.setReg IS (s.reg IS &&& trunc8 (255 - ((1 <<< i.val : Nat) : Int)))

/-- The interrupt latch is written only when the machine has one (60_exceptions.md R212). -/
def setLatch (v : Bool) (s : State) : State :=
  if s.config.nestedInterruptLatch then { s with latch := v } else s

/-- `deliver(i)` (60_exceptions.md R208): clear the IS bit, push pc, FL, R5 down to R0, take the vector. -/
def deliver (i : RegIdx) (s : State) : Except State State := do
  let s := clearPending i s
  let s ← push s.pc s
  let s ← push s.fl s
  let s ← push (s.reg 5) s
  let s ← push (s.reg 4) s
  let s ← push (s.reg 3) s
  let s ← push (s.reg 2) s
  let s ← push (s.reg 1) s
  let s ← push (s.reg 0) s
  let v ← memRead (vectorAddress s.config i) s
  return setLatch true (s.setPc v)

/-- The return from an interrupt (45_system.md R190): pop R0 up to R5, FL, pc. -/
def returnFromInterrupt (s : State) : Except State State := do
  let s ← popReg 0 s
  let s ← popReg 1 s
  let s ← popReg 2 s
  let s ← popReg 3 s
  let s ← popReg 4 s
  let s ← popReg 5 s
  let (fl, s) ← pop s
  let s := s.setFl fl
  let (pc, s) ← pop s
  return setLatch false (s.setPc pc)

end Sys2Proof.Machine
end

