-- ==== Sys2Proof/Machine/Flags.lean ====
section
/-! DEFINITION. FL: its bits, what CMP stores and what the conditional jumps read. -/

namespace Sys2Proof.Machine

/-- Bit 0 of FL: E (10_state.md R24). -/
def flEqual : Byte := 0b00000001
/-- Bit 1 of FL: G (10_state.md R24). -/
def flGreater : Byte := 0b00000010
/-- Bit 2 of FL: L (10_state.md R24). -/
def flLess : Byte := 0b00000100

/-- The whole byte CMP stores in FL: exactly one of L, G, E by the unsigned values, bits 7..3 zero (41_alu.md R110;
log 17). -/
def compareFlags (x y : Byte) : Byte :=
  if x.toNat < y.toNat then flLess
  else if y.toNat < x.toNat then flGreater
  else flEqual

/-- `FL[0]`, the only bit the conditional jumps read (44_control.md R173, R174). -/
def State.equalFlag (s : State) : Bool := s.fl.getLsbD 0

end Sys2Proof.Machine
end

