-- ==== Sys2Proof/Machine/Operands.lean ====
section
/-! DEFINITION. The operand forms: a checked register index, an immediate, and the two operand shapes of the ALU. -/

namespace Sys2Proof.Machine

/-- `reg(k)` (30_encoding.md R62): the operand byte as a register index; a byte above 7 is OutOfRange (log 14). -/
def regOperand (b : Byte) (s : State) : Except State RegIdx :=
  if h : b.toNat < 8 then .ok ⟨b.toNat, h⟩ else raise (.outOfRange (.regIndex b.toNat)) s

/-- Two register operands, byte 1 checked before byte 2, both before any effect (40_dispatch.md R84; log 11). -/
def regOperands (a b : Byte) (s : State) : Except State (RegIdx × RegIdx) := do
  let ra ← regOperand a s
  let rb ← regOperand b s
  return (ra, rb)

/-- `imm8` (30_encoding.md R63): the whole operand byte, unsigned, not extended. -/
def immOperand (b : Byte) : Byte := b

/-- A binary ALU operation: destination `a`, source `b`; both are read before `a` is written (41_alu.md R100). -/
def aluBinary (f : Byte → Byte → Byte) (a b : Byte) (s : State) : Except State State := do
  let (ra, rb) ← regOperands a b s
  advance 2 (s.setReg ra (f (s.reg ra) (s.reg rb)))

/-- A unary ALU operation, in place (41_alu.md R100). -/
def aluUnary (f : Byte → Byte) (r : Byte) (s : State) : Except State State := do
  let r ← regOperand r s
  advance 1 (s.setReg r (f (s.reg r)))

end Sys2Proof.Machine
end

