-- ==== Sys2Proof/Machine/Alu.lean ====
section
/-! DEFINITION. The ALU instructions (41_alu.md): exact integers, narrowed to a byte at the end (R100; log 29). -/

namespace Sys2Proof.Machine

/-- 41_alu.md R101. -/
def aluAdd (x y : Byte) : Byte := trunc8 ((x.toNat : Int) + y.toNat)
/-- 41_alu.md R102. -/
def aluSub (x y : Byte) : Byte := trunc8 ((x.toNat : Int) - y.toNat)
/-- 41_alu.md R103. -/
def aluMul (x y : Byte) : Byte := trunc8 ((x.toNat : Int) * y.toNat)
/-- 41_alu.md R104, for a divisor that is not 0. -/
def aluMod (x y : Byte) : Byte := trunc8 ((x.toNat % y.toNat : Nat) : Int)
/-- 41_alu.md R108: the amount is the whole byte (log 16). -/
def aluShl (x y : Byte) : Byte := trunc8 ((x.toNat <<< y.toNat : Nat) : Int)
/-- 41_alu.md R109: logical, the amount is the whole byte (log 16). -/
def aluShr (x y : Byte) : Byte := trunc8 ((x.toNat >>> y.toNat : Nat) : Int)

/-- ADD (41_alu.md R101). -/
def execAdd (a b : Byte) (s : State) : Host.Outcome State Fault Refusal := complete (aluBinary aluAdd a b s)

/-- SUB (41_alu.md R102). -/
def execSub (a b : Byte) (s : State) : Host.Outcome State Fault Refusal := complete (aluBinary aluSub a b s)

/-- MUL (41_alu.md R103). -/
def execMul (a b : Byte) (s : State) : Host.Outcome State Fault Refusal := complete (aluBinary aluMul a b s)

/-- MOD (41_alu.md R104): a divisor of 0 is DivisionByZero before any write. -/
def execMod (a b : Byte) (s : State) : Host.Outcome State Fault Refusal := complete do
  let (_, rb) ← regOperands a b s
  if s.reg rb = 0 then raise (.divisionByZero rb) s else aluBinary aluMod a b s

/-- AND (41_alu.md R105). -/
def execAnd (a b : Byte) (s : State) : Host.Outcome State Fault Refusal :=
  complete (aluBinary (fun x y => x &&& y) a b s)

/-- OR (41_alu.md R106). -/
def execOr (a b : Byte) (s : State) : Host.Outcome State Fault Refusal :=
  complete (aluBinary (fun x y => x ||| y) a b s)

/-- XOR (41_alu.md R107). -/
def execXor (a b : Byte) (s : State) : Host.Outcome State Fault Refusal :=
  complete (aluBinary (fun x y => x ^^^ y) a b s)

/-- SHL (41_alu.md R108). -/
def execShl (a b : Byte) (s : State) : Host.Outcome State Fault Refusal := complete (aluBinary aluShl a b s)

/-- SHR (41_alu.md R109). -/
def execShr (a b : Byte) (s : State) : Host.Outcome State Fault Refusal := complete (aluBinary aluShr a b s)

/-- CMP (41_alu.md R110): writes FL and no register. -/
def execCmp (a b : Byte) (s : State) : Host.Outcome State Fault Refusal := complete do
  let (ra, rb) ← regOperands a b s
  advance 2 (s.setFl (compareFlags (s.reg ra) (s.reg rb)))

/-- NOT (41_alu.md R111): `255 - x[r]`. -/
def execNot (r : Byte) (s : State) : Host.Outcome State Fault Refusal :=
  complete (aluUnary (fun x => trunc8 (255 - (x.toNat : Int))) r s)

/-- INC (41_alu.md R112). -/
def execInc (r : Byte) (s : State) : Host.Outcome State Fault Refusal :=
  complete (aluUnary (fun x => trunc8 ((x.toNat : Int) + 1)) r s)

/-- DEC (41_alu.md R113). -/
def execDec (r : Byte) (s : State) : Host.Outcome State Fault Refusal :=
  complete (aluUnary (fun x => trunc8 ((x.toNat : Int) - 1)) r s)

/-- ADDI (41_alu.md R114): the immediate is not checked. -/
def execAddi (r imm8 : Byte) (s : State) : Host.Outcome State Fault Refusal := complete do
  let r ← regOperand r s
  advance 2 (s.setReg r (aluAdd (s.reg r) (immOperand imm8)))

end Sys2Proof.Machine
end

