-- ==== Sys2Proof/Machine/Control.lean ====
section
/-! DEFINITION. Control transfer (44_control.md). -/

namespace Sys2Proof.Machine

/-- CALL (44_control.md R170): the return address is checked before the push, the target is read after it (log 13,
log 15). -/
def execCall (r : Byte) (s : State) : Host.Outcome State Fault Refusal := complete do
  let r ← regOperand r s
  let ret : Int := (s.pc.toNat : Int) + 2
  if 255 < ret then raise (.outOfRange (.pc ret)) s
  else do
    let s ← push (trunc8 ret) s
    return s.setPc (s.reg r)

/-- RET (44_control.md R171): SP increases by exactly 1 (90_conflicts.md C1; log 30). -/
def execRet (s : State) : Host.Outcome State Fault Refusal := complete do
  let (v, s) ← pop s
  return s.setPc v

/-- JMP (44_control.md R172). -/
def execJmp (r : Byte) (s : State) : Host.Outcome State Fault Refusal := complete do
  let r ← regOperand r s
  return s.setPc (s.reg r)

/-- JEQ (44_control.md R173): not taken, it adds 2 like the default advance of one operand. -/
def execJeq (r : Byte) (s : State) : Host.Outcome State Fault Refusal := complete do
  let r ← regOperand r s
  if s.equalFlag then return s.setPc (s.reg r) else advance 1 s

/-- JNE (44_control.md R174). -/
def execJne (r : Byte) (s : State) : Host.Outcome State Fault Refusal := complete do
  let r ← regOperand r s
  if s.equalFlag then advance 1 s else return s.setPc (s.reg r)

end Sys2Proof.Machine
end

