-- ==== Sys2Proof/Machine/DataIo.lean ====
section
/-! DEFINITION. Data movement and console output (42_data_io.md). -/

namespace Sys2Proof.Machine

/-- LDI (42_data_io.md R140). -/
def execLdi (r imm8 : Byte) (s : State) : Host.Outcome State Fault Refusal := complete do
  let r ← regOperand r s
  advance 2 (s.setReg r (immOperand imm8))

/-- LD (42_data_io.md R141): the address is `x[b]`. -/
def execLd (a b : Byte) (s : State) : Host.Outcome State Fault Refusal := complete do
  let (ra, rb) ← regOperands a b s
  let v ← memRead (s.reg rb).toNat s
  advance 2 (s.setReg ra v)

/-- ST (42_data_io.md R142): the address is `x[a]`, the value `x[b]`. -/
def execSt (a b : Byte) (s : State) : Host.Outcome State Fault Refusal := complete do
  let (ra, rb) ← regOperands a b s
  let s ← memWrite (s.reg ra).toNat (s.reg rb) s
  advance 2 s

/-- PRN (42_data_io.md R143). -/
def execPrn (r : Byte) (s : State) : Host.Outcome State Fault Refusal := complete do
  let r ← regOperand r s
  advance 1 (emit .prn (s.reg r) s)

/-- PRA (42_data_io.md R144). -/
def execPra (r : Byte) (s : State) : Host.Outcome State Fault Refusal := complete do
  let r ← regOperand r s
  advance 1 (emit .pra (s.reg r) s)

end Sys2Proof.Machine
end

