-- ==== Sys2Proof/Machine/Stack.lean ====
section
/-! DEFINITION. PUSH and POP (43_stack.md section 2), in the source's order of statements (log 15). -/

namespace Sys2Proof.Machine

/-- PUSH (43_stack.md R162): the register is read after SP changed. -/
def execPush (r : Byte) (s : State) : Host.Outcome State Fault Refusal := complete do
  let r ← regOperand r s
  let s ← decSp s
  let s ← memWrite (s.reg SP).toNat (s.reg r) s
  advance 1 s

/-- POP (43_stack.md R163): SP is read again after the register was written. -/
def execPop (r : Byte) (s : State) : Host.Outcome State Fault Refusal := complete do
  let r ← regOperand r s
  let v ← memRead (s.reg SP).toNat s
  let s ← incSp (s.setReg r v)
  advance 1 s

end Sys2Proof.Machine
end

