-- ==== Sys2Proof/Machine/System.lean ====
section
/-! DEFINITION. IRET and HLT (45_system.md). -/

namespace Sys2Proof.Machine

/-- IRET (45_system.md R190). -/
def execIret (s : State) : Host.Outcome State Fault Refusal := complete (returnFromInterrupt s)

/-- HLT (45_system.md R191): pc stays at the HLT (log 22). -/
def execHlt (s : State) : Host.Outcome State Fault Refusal := complete (.ok (s.setStatus .halted))

end Sys2Proof.Machine
end

