-- ==== Sys2Proof/Machine/Interrupts.lean ====
section
/-! DEFINITION. The interrupt controller: the poll and the interrupt check (60_exceptions.md sections 2 and 3). -/

namespace Sys2Proof.Machine

/-- The draw of the next poll: the first scheduled one, or a free value once none is scheduled (60_exceptions.md R205,
R206; log 7). -/
def State.nextDraw (s : State) : Draw :=
  match s.draws with
  | d :: _ => d
  | [] => Config.freeDraw s.polls

/-- The environment has made its draw. -/
def State.takeDraw (s : State) : State := { s with draws := s.draws.tail, polls := s.polls + 1 }

/-- The timer's part of the poll: IS bit 0 is set, whatever IM holds (60_exceptions.md R204). -/
def pollTimer (tick : Bool) (s : State) : State :=
  if tick then s.setReg IS (s.reg IS ||| 0b00000001) else s

/-- The keyboard's part of the poll: the code is written to KEY_CELL, then IS bit 1 is set (60_exceptions.md R204). -/
def pollKeyboard (key : Option Byte) (s : State) : State :=
  match key with
  | none => s
  | some code =>
    let s := s.writeMem keyCell code
    s.setReg IS (s.reg IS ||| 0b00000010)

/-- `poll(tick, key)`, the timer first (60_exceptions.md R204; log 21). -/
def poll (d : Draw) (s : State) : State := pollKeyboard d.key (pollTimer d.tick s)

/-- The lowest bit index of a byte that is 1. -/
def lowestBit (m : Byte) : Option RegIdx :=
  [0, 1, 2, 3, 4, 5, 6, 7].find? fun i : RegIdx => m.getLsbD i.val

/-- The interrupt the check delivers, if any: the lowest enabled pending one, and none while the latch, where the
machine has one, is set (60_exceptions.md R207; log 18). -/
def dueInterrupt (s : State) : Option RegIdx :=
  if s.config.nestedInterruptLatch && s.latch then none
  else lowestBit (s.reg IM &&& s.reg IS)

/-- `interrupt_check()`: at most one delivery (60_exceptions.md R207). -/
def interruptCheck (s : State) : Except State State :=
  match dueInterrupt s with
  | none => .ok s
  | some i => deliver i s

end Sys2Proof.Machine
end

