-- ==== Sys2Proof/Machine/Fetch.lean ====
section
/-! DEFINITION. Instruction fetch (40_dispatch.md R82, R83), the preload, and placing an instruction where the next
cycle fetches. -/

namespace Sys2Proof.Machine

/-- The bytes from address `a` up, at most `n`, none past the end of memory. -/
def Memory.window (m : Memory) (a : Nat) : Nat → List Byte
  | 0 => []
  | n + 1 => if a < 256 then m.read a :: Memory.window m (a + 1) n else []

/-- The bytes an instruction at pc may have: the opcode and up to two operands (30_encoding.md R60). -/
def fetchBytes (s : State) : List Byte := s.mem.window s.pc.toNat 3

/-- Fetch and decode. An unassigned opcode is UnsupportedOperation and no operand byte counts (40_dispatch.md R82); an
operand byte past address 255 is OutOfRange at its address (R83). -/
def fetchInstr (s : State) : Except FatalError Instr :=
  match decode s.config (fetchBytes s) with
  | .ok (i, _) => .ok i
  | .error .noByte => .error (.outOfRange (.addr s.pc.toNat))
  | .error (.unassigned opcode) => .error (.unsupportedOperation opcode s.pc)
  | .error (.missingOperand k) => .error (.outOfRange (.addr ((s.pc.toNat : Int) + k)))

/-- Bytes written one after another from an address up. -/
def Memory.writeFrom (m : Memory) (a : Nat) : List Byte → Memory
  | [] => m
  | b :: bs => Memory.writeFrom (m.write a b) (a + 1) bs

/-- The host's preload: byte `k` of the image at address `k`, no register, pc, FL or status changed
(70_reset_and_hazards.md R251). -/
def preload (image : List Byte) (s : State) : State := { s with mem := s.mem.writeFrom 0 image }

/-- `s` with bytes stored at pc (those that fit below address 256), Running, the next poll quiet, and no interrupt
due: what it takes that the very next cycle fetches and runs exactly them (log 27). -/
def placeInstr (bytes : List Byte) (s : State) : State :=
  let s := { s with
    mem := s.mem.writeFrom s.pc.toNat (bytes.take (256 - s.pc.toNat))
    status := .running
    draws := .quiet :: s.draws }
  match dueInterrupt s with
  | none => s
  | some _ => s.setReg IS (s.reg IS &&& ~~~ s.reg IM)

end Sys2Proof.Machine
end

