-- ==== Sys2Proof/Machine/Cycle.lean ====
section
/-! DEFINITION. One cycle of a Running block, and the host's move on an Idle one (40_dispatch.md section 1). -/

namespace Sys2Proof.Machine

/-- `execute_one()`: fetch, decode and dispatch (40_dispatch.md R82 to R87). -/
def executeOne (s : State) : Host.Outcome State Fault Refusal :=
  match fetchInstr s with
  | .error e => .next (s.fail e)
  | .ok i => exec i s

/-- `cycle(tick, key)`: poll, interrupt check, one instruction (40_dispatch.md R81). -/
def cycle (d : Draw) (s : State) : Host.Outcome State Fault Refusal :=
  match interruptCheck (poll d s) with
  | .error s => .next s
  | .ok s => executeOne s

/-- The host's next move on an Idle block: preload or start (60_exceptions.md R218); with no move pending the block
waits. An image of more than 256 bytes never reaches the block (92_eei_decisions.md D22; log 8, log 23). -/
def hostMove (s : State) : Host.Outcome State Fault Refusal :=
  match s.host with
  | [] => .next s
  | .preload image :: rest =>
    if 256 < image.length then .refused (.imageTooLong image.length)
    else .next (preload image { s with host := rest })
  | .start :: rest => .next { s with host := rest, status := .running }

end Sys2Proof.Machine
end

