-- ==== Sys2Proof/Machine/Step.lean ====
section
/-! DEFINITION. The step: by the run state (40_dispatch.md R80), and the host's tool for placing an instruction. -/

namespace Sys2Proof.Machine

/-- One step: in Idle the host's next move, in Running one cycle, and none at all in Halted or Failed (10_state.md R29,
40_dispatch.md R80; log 10). -/
def step (s : State) : Host.Outcome State Fault Refusal :=
  match s.status with
  | .idle => hostMove s
  | .running => cycle s.nextDraw s.takeDraw
  | .halted => .fault .runHalted
  | .failed e => .fault (.runFailed e)

/-- `s` with a word of spec/opcode_table.json stored where the next step fetches its instruction (log 27). -/
def State.withFetchWord (s : State) (nbits w : Nat) : State := placeInstr (bytesOfWord nbits w) s

end Sys2Proof.Machine
end

