-- ==== Sys2Proof/Safety.lean ====
section
/-! DEFINITION. What counts as a safe run, in the terms the statements use: the invariants, and what it means that an
operation leaves state unchanged. -/

namespace Sys2Proof.Machine

/-- No fatal error has happened (60_exceptions.md R200). -/
def Safe (s : State) : Prop := ∀ e, s.status ≠ .failed e

/-- The parameters make one machine and memory is in its canonical form. -/
def State.Inv (s : State) : Prop := s.config.wf = true ∧ Memory.wf s.mem = true

/-- Every byte of memory reads as before, but for the addresses in `written`. -/
def MemSameBut (written : List Nat) (s t : State) : Prop :=
  ∀ a, a ∉ written → t.readMem a = s.readMem a

/-- Every general register holds what it held, but for those in `written`. -/
def RegsSameBut (written : List RegIdx) (s t : State) : Prop :=
  ∀ r, r ∉ written → t.reg r = s.reg r

/-- The state no ordinary instruction writes: run state, latch, parameters, and the inputs still to come. -/
def ControlSame (s t : State) : Prop :=
  t.status = s.status ∧ t.latch = s.latch ∧ t.config = s.config ∧ t.host = s.host ∧ t.draws = s.draws
    ∧ t.polls = s.polls

/-- The frame of an instruction that writes at most the listed registers and memory bytes, and pc. -/
def Frame (regs : List RegIdx) (mem : List Nat) (s t : State) : Prop :=
  RegsSameBut regs s t ∧ MemSameBut mem s t ∧ t.fl = s.fl ∧ t.out = s.out ∧ ControlSame s t

/-- The default advance was made: `len` is the instruction's length (40_dispatch.md R86). -/
def Advanced (len : Nat) (s t : State) : Prop := t.pc.toNat = s.pc.toNat + len

/-- The operand byte `b` is the index of register `r` (30_encoding.md R62). -/
abbrev Names (b : Byte) (r : RegIdx) : Prop := b.toNat = r.val

/-- The cycle ends in a state whose status is Failed with this error (40_dispatch.md R88). -/
def Fails (o : Host.Outcome State Fault Refusal) (e : FatalError) : Prop :=
  ∃ t, o = .next t ∧ t.status = .failed e

end Sys2Proof.Machine
end

