-- ==== Sys2Proof/Certificates/Slice0/Obligations.lean ====
section
/-! DEFINITION. The statements for the provers. Where a statement rests on a choice the spec marks as its own (a decision
D<n> of 92_eei_decisions.md) or on one of this model (a log entry), its docstring says so. A clause `... = .next (s.fail e)`
says which state a fatal error leaves: that state is the spec's decision D15 (log 9) unless the instruction's own rule
says what is unchanged, and no claim about a finished run should read more of it than its status. -/

open Sys2Proof Sys2Proof.Machine

/-! ## Encoding -/

/-- Words written out from the rows of 30_encoding.md R64 decode to the instructions they stand for. The byte values are
the spec's from general knowledge (D1, D2; log 1, log 2). -/
def Obligations.SpecWordsDecodeToTheirInstructions : Prop :=
  decode specConfig [0b10000010, 0, 8] = .ok (.ldi 0 8, []) ∧
  decode specConfig [0b10000100, 4, 0] = .ok (.st 4 0, []) ∧
  decode specConfig [0b01000111, 2, 0xEE] = .ok (.prn 2, [0xEE]) ∧
  decode specConfig [0b01000101, 1] = .ok (.push 1, []) ∧
  decode specConfig [0b01010000, 3] = .ok (.call 3, []) ∧
  decode specConfig [0b00010001, 7] = .ok (.ret, [7]) ∧
  decode specConfig [0b10100111, 1, 2] = .ok (.cmp 1 2, []) ∧
  decode specConfig [0b01101001, 3] = .ok (.bitNot 3, []) ∧
  decode specConfig [0b10101111, 0, 0xFF] = .ok (.addi 0 0xFF, []) ∧
  decode specConfig [0b00010011] = .ok (.iret, []) ∧
  decode specConfig [0b00000001] = .ok (.hlt, []) ∧
  decode specConfig [0b10101101, 0, 1] = .ok (.shr 0 1, [])

/-- Which opcode bytes are unassigned (30_encoding.md R66): 228 of the 256, and 233 when the bitwise operations are not
dispatched; 0x00 and the LS-8 opcodes absent from the catalog are among them. Rests on the byte values of D1, D2. -/
def Obligations.UnassignedOpcodeBytesAreCounted : Prop :=
  ((List.range 256).filter fun n => (lookup specConfig (BitVec.ofNat 8 n)).isNone).length = 228 ∧
  ((List.range 256).filter fun n =>
    (lookup { specConfig with aluBitwiseDispatched := false } (BitVec.ofNat 8 n)).isNone).length = 233 ∧
  [0x00, 0xA3, 0x52, 0x57, 0x58, 0x59, 0x5A].all fun b => (lookup specConfig b).isNone

/-- For every machine of 00_scope.md R8 and every well-formed instruction of it, the encoder gives 1 + (operand count)
bytes (30_encoding.md R60), and decoding them, whatever follows, gives the instruction and what follows. -/
def Obligations.DecodeOfEncodeIsTheInstruction : Prop :=
  ∀ (c : Config) (i : Instr), c.wf = true → i.WellFormed c = true →
    ∃ bytes, encode c i = some bytes ∧ bytes.length = 1 + i.op.operandCount ∧
      ∀ rest, decode c (bytes ++ rest) = .ok (i, rest)

/-- The other direction: bytes that decode to an instruction begin with its encoding, so each instruction has one
encoding (30_encoding.md R64, R67). -/
def Obligations.EncodeOfDecodeIsTheBytes : Prop :=
  ∀ (c : Config) (bytes rest : List Byte) (i : Instr), c.wf = true → decode c bytes = .ok (i, rest) →
    ∃ word, encode c i = some word ∧ bytes = word ++ rest

/-- 40_dispatch.md R82 and R83: the opcode is the byte at pc; an unassigned one is UnsupportedOperation and no operand
is read; else operand k is the byte at pc + k, and an operand address past 255 (the first is 256) is OutOfRange, with
no other effect. -/
def Obligations.FetchDecodesOpcodeAndOperands : Prop :=
  ∀ s : State,
    (lookup s.config (s.readMem s.pc.toNat) = none →
      executeOne s = .next (s.fail (.unsupportedOperation (s.readMem s.pc.toNat) s.pc))) ∧
    (∀ op, lookup s.config (s.readMem s.pc.toNat) = some op →
      (s.pc.toNat + op.operandCount ≤ 255 →
        executeOne s =
          exec (assemble op (s.readMem (s.pc.toNat + 1)) (s.readMem (s.pc.toNat + 2))) s) ∧
      (255 < s.pc.toNat + op.operandCount →
        executeOne s = .next (s.fail (.outOfRange (.addr 256)))))

/-! ## The cycle and the run state -/

/-- A step of a Running block runs the instruction decoded at the program counter: on the state the poll and the check
left; and, where the draw is quiet and no interrupt is due, on the state itself, less the draw (40_dispatch.md R81). -/
def Obligations.StepRunsTheDecodedInstruction : Prop :=
  ∀ (s : State) (i : Instr) (rest : List Byte), s.status = .running →
    (∀ s1, interruptCheck (poll s.nextDraw s.takeDraw) = .ok s1 →
      decode s1.config (fetchBytes s1) = .ok (i, rest) → step s = exec i s1) ∧
    (s.nextDraw = Draw.quiet → dueInterrupt s = none →
      decode s.config (fetchBytes s) = .ok (i, rest) → step s = exec i s.takeDraw)

/-- A delivery and one instruction at the new pc make one cycle (60_exceptions.md R209); a delivery that faults ends the
cycle (40_dispatch.md R88, R89). -/
def Obligations.DeliveryAndHandlerInstructionShareACycle : Prop :=
  ∀ (s : State) (i : RegIdx), s.status = .running → dueInterrupt (poll s.nextDraw s.takeDraw) = some i →
    (∀ s1, deliver i (poll s.nextDraw s.takeDraw) = .ok s1 → step s = executeOne s1) ∧
    (∀ s1, deliver i (poll s.nextDraw s.takeDraw) = .error s1 → step s = .next s1)

/-- A cycle of a Running block always ends in a next state, and that state is Running, Halted or Failed: "every
instruction is executable at every cycle" (60_exceptions.md R215), and a fatal error is a status (40_dispatch.md R88;
log 9), so neither the model's faults nor its refusals cut a run short. -/
def Obligations.RunningCycleHasANextState : Prop :=
  ∀ s : State, s.status = .running →
    ∃ t, step s = .next t ∧ t.status ≠ .idle

/-- "No transition leaves `Halted`", nor does any leave Failed (10_state.md R29): a step has no next state there. That it
is the model's named Fault is log 10. -/
def Obligations.TerminalStatesHaveNoNextState : Prop :=
  ∀ s : State,
    (s.status = .halted → step s = .fault .runHalted) ∧
    (∀ e, s.status = .failed e → step s = .fault (.runFailed e))

/-- HLT is the only normal end of a run (45_system.md R191, 40_dispatch.md R92). -/
def Obligations.OnlyHaltInstructionHalts : Prop :=
  ∀ (i : Instr) (s t : State), s.status = .running → exec i s = .next t → t.status = .halted → i = .hlt

/-- The values of 10_state.md R32. The clause on the latch is a choice, not a value the spec gives this machine: R32 lists it
"if present" and as its decision D7, and that the field exists, and is 0, where the machine has no latch is log 25. -/
def Obligations.ResetHoldsTheStatedValues : Prop :=
  (∀ r : RegIdx, State.reset.reg r = if r = SP then 0xF4 else 0) ∧
  State.reset.pc = 0 ∧ State.reset.fl = 0 ∧ (∀ a, State.reset.readMem a = 0) ∧
  State.reset.status = .idle ∧ State.reset.out = [] ∧ State.reset.latch = false

/-- The host's preload of an Idle block (70_reset_and_hazards.md R251): byte k of the image at address k, every other
cell as it was, and no register, pc, FL or status changed. -/
def Obligations.PreloadWritesTheImage : Prop :=
  ∀ (s : State) (image : List Byte) (rest : List HostAction), s.status = .idle →
    s.host = .preload image :: rest → image.length ≤ 256 →
    ∃ t, step s = .next t ∧ (∀ k (h : k < image.length), t.readMem k = image[k]) ∧
      (∀ k, image.length ≤ k → t.readMem k = s.readMem k) ∧ t.regs = s.regs ∧ t.pc = s.pc ∧ t.fl = s.fl ∧
      t.status = s.status ∧ t.out = s.out ∧ t.latch = s.latch ∧ t.config = s.config ∧ t.host = rest ∧
      t.draws = s.draws ∧ t.polls = s.polls

/-- The start control moves Idle to Running and changes nothing else (40_dispatch.md R80), no poll is made in Idle (D30);
with no move of the host pending the block waits (log 8); an image of more than 256 bytes is refused (D22; log 23). -/
def Obligations.StartMovesIdleToRunning : Prop :=
  ∀ s : State, s.status = .idle →
    (s.host = [] → step s = .next s) ∧
    (∀ rest, s.host = .start :: rest → step s = .next { s with status := .running, host := rest }) ∧
    (∀ image rest, s.host = .preload image :: rest → 256 < image.length →
      step s = .refused (.imageTooLong image.length))

/-- The host has no move while the block is Running (60_exceptions.md R218, the spec's D32): on the same draws, what it has
pending has no influence. -/
def Obligations.HostIsInvisibleWhileRunning : Prop :=
  ∀ (s t : State) (h : List HostAction), s.status = .running → step s = .next t →
    step { s with host := h } = .next { t with host := h }

/-! ## Registers, memory, operands, pc -/

/-- A register holds what was last written to it, and a write changes no other register and nothing else (10_state.md R20,
R22). -/
def Obligations.RegisterWriteChangesOneRegister : Prop :=
  ∀ (s : State) (r : RegIdx) (v : Byte),
    (s.setReg r v).reg r = v ∧ RegsSameBut [r] s (s.setReg r v) ∧ MemSameBut [] s (s.setReg r v) ∧
      (s.setReg r v).pc = s.pc ∧ (s.setReg r v).fl = s.fl

/-- The memory primitives (20_memory.md R41): inside 0..255 a read gives the cell and a write changes it and no other;
outside, both raise OutOfRange and change nothing. -/
def Obligations.MemoryPrimitivesReadAndWriteOneCell : Prop :=
  ∀ (s : State) (a : Int) (v : Byte),
    (0 ≤ a ∧ a ≤ 255 →
      memRead a s = .ok (s.readMem a.toNat) ∧
      ∃ t, memWrite a v s = .ok t ∧ t.readMem a.toNat = v ∧ t.pc = s.pc ∧ Frame [] [a.toNat] s t) ∧
    (a < 0 ∨ 255 < a →
      memRead a s = .error (s.fail (.outOfRange (.addr a))) ∧
      memWrite a v s = .error (s.fail (.outOfRange (.addr a))))

/-- The register-operand check (30_encoding.md R62, 40_dispatch.md R84): the first register operand above 7 is OutOfRange,
before any effect. The whole-byte index and the order are the spec's D10 and D14. -/
def Obligations.RegisterOperandAboveSevenFails : Prop :=
  ∀ (i : Instr) (s : State) (b : Byte), i.registerOperands.find? (fun x => decide (8 ≤ x.toNat)) = some b →
    exec i s = .next (s.fail (.outOfRange (.regIndex b.toNat)))

/-- The default pc update (40_dispatch.md R86): an instruction that does not own pc has an effect that does not depend on
where it stands, then pc advances by 1 + (operand count); past 255 that is OutOfRange, and the effect stands with pc at
the instruction (D9, D15). -/
def Obligations.DefaultAdvanceFollowsTheEffect : Prop :=
  ∀ (i : Instr) (s t : State), i.op.ownsPc = false → s.status = .running → exec i (s.setPc 0) = .next t →
    t.status = .running →
    (s.pc.toNat + 1 + i.op.operandCount ≤ 255 →
      exec i s = .next (t.setPc (BitVec.ofNat 8 (s.pc.toNat + 1 + i.op.operandCount)))) ∧
    (255 < s.pc.toNat + 1 + i.op.operandCount →
      exec i s = .next ((t.setPc s.pc).fail
        (.outOfRange (.pc ((s.pc.toNat + 1 + i.op.operandCount : Nat) : Int)))))

/-! ## ALU -/

/-- ADD, SUB and MUL (41_alu.md R101 to R103): the exact result modulo 256 (R100, D16), no flag, nothing else. -/
def Obligations.AddSubMulWrapModulo256 : Prop :=
  ∀ (a b : Byte) (ra rb : RegIdx) (s : State), Names a ra → Names b rb → s.pc.toNat + 3 ≤ 255 →
    (∃ t, exec (.add a b) s = .next t ∧ (t.reg ra).toNat = ((s.reg ra).toNat + (s.reg rb).toNat) % 256 ∧
      Frame [ra] [] s t ∧ Advanced 3 s t) ∧
    (∃ t, exec (.sub a b) s = .next t ∧
      ((t.reg ra).toNat : Int) = (((s.reg ra).toNat : Int) - (s.reg rb).toNat) % 256 ∧
      Frame [ra] [] s t ∧ Advanced 3 s t) ∧
    (∃ t, exec (.mul a b) s = .next t ∧ (t.reg ra).toNat = ((s.reg ra).toNat * (s.reg rb).toNat) % 256 ∧
      Frame [ra] [] s t ∧ Advanced 3 s t)

/-- MOD (41_alu.md R104): the unsigned remainder; a divisor of 0 is DivisionByZero with nothing written, wherever the
instruction stands. -/
def Obligations.ModIsTheUnsignedRemainder : Prop :=
  ∀ (a b : Byte) (ra rb : RegIdx) (s : State), Names a ra → Names b rb →
    (s.reg rb ≠ 0 → s.pc.toNat + 3 ≤ 255 →
      ∃ t, exec (.mod a b) s = .next t ∧ (t.reg ra).toNat = (s.reg ra).toNat % (s.reg rb).toNat ∧
        Frame [ra] [] s t ∧ Advanced 3 s t) ∧
    (s.reg rb = 0 → exec (.mod a b) s = .next (s.fail (.divisionByZero rb)))

/-- AND, OR and XOR (41_alu.md R105 to R107), bit by bit. -/
def Obligations.BitwiseOperationsActBitByBit : Prop :=
  ∀ (a b : Byte) (ra rb : RegIdx) (s : State), Names a ra → Names b rb → s.pc.toNat + 3 ≤ 255 →
    (∃ t, exec (.bitAnd a b) s = .next t ∧
      (∀ k, k < 8 → (t.reg ra).getLsbD k = ((s.reg ra).getLsbD k && (s.reg rb).getLsbD k)) ∧
      Frame [ra] [] s t ∧ Advanced 3 s t) ∧
    (∃ t, exec (.bitOr a b) s = .next t ∧
      (∀ k, k < 8 → (t.reg ra).getLsbD k = ((s.reg ra).getLsbD k || (s.reg rb).getLsbD k)) ∧
      Frame [ra] [] s t ∧ Advanced 3 s t) ∧
    (∃ t, exec (.bitXor a b) s = .next t ∧
      (∀ k, k < 8 → (t.reg ra).getLsbD k = ((s.reg ra).getLsbD k ^^ (s.reg rb).getLsbD k)) ∧
      Frame [ra] [] s t ∧ Advanced 3 s t)

/-- SHL and SHR (41_alu.md R108, R109): logical, by the whole byte; an amount of 8 or more gives 0. The kind and the
amount are the spec's D12. -/
def Obligations.ShiftsAreLogicalByTheWholeByte : Prop :=
  ∀ (a b : Byte) (ra rb : RegIdx) (s : State), Names a ra → Names b rb → s.pc.toNat + 3 ≤ 255 →
    (∃ t, exec (.shl a b) s = .next t ∧
      (t.reg ra).toNat = ((s.reg ra).toNat * 2 ^ (s.reg rb).toNat) % 256 ∧
      (8 ≤ (s.reg rb).toNat → t.reg ra = 0) ∧ Frame [ra] [] s t ∧ Advanced 3 s t) ∧
    (∃ t, exec (.shr a b) s = .next t ∧
      (t.reg ra).toNat = (s.reg ra).toNat / 2 ^ (s.reg rb).toNat ∧
      (8 ≤ (s.reg rb).toNat → t.reg ra = 0) ∧ Frame [ra] [] s t ∧ Advanced 3 s t)

/-- CMP (41_alu.md R110): FL becomes exactly one of L, G, E by the unsigned values, the whole byte, and no register or
memory byte changes. -/
def Obligations.CompareSetsExactlyOneFlag : Prop :=
  ∀ (a b : Byte) (ra rb : RegIdx) (s : State), Names a ra → Names b rb → s.pc.toNat + 3 ≤ 255 →
    ∃ t, exec (.cmp a b) s = .next t ∧
      ((s.reg ra).toNat < (s.reg rb).toNat → t.fl = 0b00000100) ∧
      ((s.reg rb).toNat < (s.reg ra).toNat → t.fl = 0b00000010) ∧
      ((s.reg ra).toNat = (s.reg rb).toNat → t.fl = 0b00000001) ∧
      RegsSameBut [] s t ∧ MemSameBut [] s t ∧ t.out = s.out ∧ ControlSame s t ∧ Advanced 3 s t

/-- NOT, INC and DEC (41_alu.md R111 to R113): in place, INC and DEC with wraparound, and no flag. -/
def Obligations.UnaryOperationsActInPlace : Prop :=
  ∀ (r : Byte) (rr : RegIdx) (s : State), Names r rr → s.pc.toNat + 2 ≤ 255 →
    (∃ t, exec (.bitNot r) s = .next t ∧ (t.reg rr).toNat = 255 - (s.reg rr).toNat ∧
      Frame [rr] [] s t ∧ Advanced 2 s t) ∧
    (∃ t, exec (.inc r) s = .next t ∧ (t.reg rr).toNat = ((s.reg rr).toNat + 1) % 256 ∧
      Frame [rr] [] s t ∧ Advanced 2 s t) ∧
    (∃ t, exec (.dec r) s = .next t ∧ (t.reg rr).toNat = ((s.reg rr).toNat + 255) % 256 ∧
      Frame [rr] [] s t ∧ Advanced 2 s t)

/-- LDI and ADDI (42_data_io.md R140, 41_alu.md R114): the immediate is the whole byte, any of the 256 values. -/
def Obligations.ImmediateIsTheWholeByte : Prop :=
  ∀ (r imm8 : Byte) (rr : RegIdx) (s : State), Names r rr → s.pc.toNat + 3 ≤ 255 →
    (∃ t, exec (.ldi r imm8) s = .next t ∧ t.reg rr = imm8 ∧ Frame [rr] [] s t ∧ Advanced 3 s t) ∧
    (∃ t, exec (.addi r imm8) s = .next t ∧ (t.reg rr).toNat = ((s.reg rr).toNat + imm8.toNat) % 256 ∧
      Frame [rr] [] s t ∧ Advanced 3 s t)

/-! ## Data movement and console -/

/-- LD (42_data_io.md R141): the byte at the address in the second register; memory is unchanged. -/
def Obligations.LoadReadsTheAddressedByte : Prop :=
  ∀ (a b : Byte) (ra rb : RegIdx) (s : State), Names a ra → Names b rb → s.pc.toNat + 3 ≤ 255 →
    ∃ t, exec (.ld a b) s = .next t ∧ t.reg ra = s.readMem (s.reg rb).toNat ∧ Frame [ra] [] s t ∧ Advanced 3 s t

/-- ST (42_data_io.md R142): the second register's byte at the address in the first; every other address reads as before,
and no register changes. -/
def Obligations.StoreWritesTheAddressedByte : Prop :=
  ∀ (a b : Byte) (ra rb : RegIdx) (s : State), Names a ra → Names b rb → s.pc.toNat + 3 ≤ 255 →
    ∃ t, exec (.st a b) s = .next t ∧ t.readMem (s.reg ra).toNat = s.reg rb ∧
      Frame [] [(s.reg ra).toNat] s t ∧ Advanced 3 s t

/-- PRN and PRA (42_data_io.md R143, R144): one record of the register's byte at the end of the console output, and
nothing else changes but pc. -/
def Obligations.PrintAppendsOneRecord : Prop :=
  ∀ (r : Byte) (rr : RegIdx) (s : State), Names r rr → s.pc.toNat + 2 ≤ 255 →
    (∃ t, exec (.prn r) s = .next t ∧ t.out = s.out ++ [⟨.prn, s.reg rr⟩] ∧ RegsSameBut [] s t ∧
      MemSameBut [] s t ∧ t.fl = s.fl ∧ ControlSame s t ∧ Advanced 2 s t) ∧
    (∃ t, exec (.pra r) s = .next t ∧ t.out = s.out ++ [⟨.pra, s.reg rr⟩] ∧ RegsSameBut [] s t ∧
      MemSameBut [] s t ∧ t.fl = s.fl ∧ ControlSame s t ∧ Advanced 2 s t)

/-- The console output is empty at construction, and only PRN and PRA append to it (10_state.md R30): no other instruction, no
poll, no interrupt check or delivery, whether or not it ends in a fatal error, and no step of a block that is not
Running changes it. Whatever a step does, the records already emitted stay where they are, in order (R30, 42_data_io.md
R145). -/
def Obligations.OnlyPrintInstructionsAppendToTheConsole : Prop :=
  State.reset.out = [] ∧
  (∀ (i : Instr) (s t : State), exec i s = .next t → (∀ r, i ≠ .prn r) → (∀ r, i ≠ .pra r) → t.out = s.out) ∧
  (∀ (d : Draw) (s : State), (poll d s).out = s.out) ∧
  (∀ s t : State, interruptCheck s = .ok t ∨ interruptCheck s = .error t → t.out = s.out) ∧
  (∀ s t : State, s.status ≠ .running → step s = .next t → t.out = s.out) ∧
  (∀ s t : State, step s = .next t → s.out <+: t.out)

/-! ## Stack -/

/-- PUSH (43_stack.md R162): SP goes down by one and the register's byte is written there; for R7 the byte is the
decremented SP (D11); at SP = 0 it is OutOfRange with nothing written (D8). -/
def Obligations.PushStoresBelowTheStackPointer : Prop :=
  ∀ (r : Byte) (rr : RegIdx) (s : State), Names r rr →
    (1 ≤ (s.reg SP).toNat → s.pc.toNat + 2 ≤ 255 →
      ∃ t, exec (.push r) s = .next t ∧ (t.reg SP).toNat = (s.reg SP).toNat - 1 ∧
        t.readMem ((s.reg SP).toNat - 1) = (if rr = SP then t.reg SP else s.reg rr) ∧
        Frame [SP] [(s.reg SP).toNat - 1] s t ∧ Advanced 2 s t) ∧
    ((s.reg SP).toNat = 0 → exec (.push r) s = .next (s.fail (.outOfRange (.sp (-1)))))

/-- POP (43_stack.md R163): the byte at SP, and SP goes up by one; for R7 SP ends as the popped byte plus one (D11); an SP
above 255 is OutOfRange (D8). -/
def Obligations.PopReadsAtTheStackPointer : Prop :=
  ∀ (r : Byte) (rr : RegIdx) (s : State), Names r rr →
    (rr ≠ SP → (s.reg SP).toNat ≤ 254 → s.pc.toNat + 2 ≤ 255 →
      ∃ t, exec (.pop r) s = .next t ∧ t.reg rr = s.readMem (s.reg SP).toNat ∧
        (t.reg SP).toNat = (s.reg SP).toNat + 1 ∧ Frame [rr, SP] [] s t ∧ Advanced 2 s t) ∧
    (rr = SP → (s.readMem (s.reg SP).toNat).toNat ≤ 254 → s.pc.toNat + 2 ≤ 255 →
      ∃ t, exec (.pop r) s = .next t ∧ (t.reg SP).toNat = (s.readMem (s.reg SP).toNat).toNat + 1 ∧
        Frame [SP] [] s t ∧ Advanced 2 s t) ∧
    (rr ≠ SP → (s.reg SP).toNat = 255 → Fails (exec (.pop r) s) (.outOfRange (.sp 256))) ∧
    (rr = SP → s.readMem (s.reg SP).toNat = 255 → Fails (exec (.pop r) s) (.outOfRange (.sp 256)))

/-- The primitives (43_stack.md R160, R161): a push with SP above 0 and then a pop gives back the byte, SP and every
register, and changes only the byte below SP; push faults at SP = 0 and pop at SP = 255 with the state unchanged
(D8). -/
def Obligations.StackPrimitivesPushAndPopOneByte : Prop :=
  ∀ (s : State) (v : Byte),
    (1 ≤ (s.reg SP).toNat →
      ∃ t u, push v s = .ok t ∧ (t.reg SP).toNat = (s.reg SP).toNat - 1 ∧ t.readMem (t.reg SP).toNat = v ∧
        pop t = .ok (v, u) ∧ u.pc = s.pc ∧ Frame [] [(s.reg SP).toNat - 1] s u) ∧
    ((s.reg SP).toNat = 0 → push v s = .error (s.fail (.outOfRange (.sp (-1))))) ∧
    ((s.reg SP).toNat = 255 → pop s = .error (s.fail (.outOfRange (.sp 256))))

/-- 43_stack.md R164 (1): PUSH r and then POP r leave every register and SP unchanged and change only the byte below SP,
for every r, R7 included (D11). -/
def Obligations.PushThenPopLeavesTheRegisterUnchanged : Prop :=
  ∀ (r : Byte) (rr : RegIdx) (s : State), Names r rr → 1 ≤ (s.reg SP).toNat → s.pc.toNat + 4 ≤ 255 →
    ∃ t u, exec (.push r) s = .next t ∧ exec (.pop r) t = .next u ∧
      Frame [] [(s.reg SP).toNat - 1] s u ∧ Advanced 4 s u

/-! ## Control transfer -/

/-- CALL (44_control.md R170): pushes pc + 2 and goes to the register's address, read after the push (D11, so R7 is the
decremented SP); a return address above 255 (D9), checked first, or SP = 0 (D8) is OutOfRange with nothing pushed. -/
def Obligations.CallPushesTheReturnAddress : Prop :=
  ∀ (r : Byte) (rr : RegIdx) (s : State), Names r rr →
    (s.pc.toNat + 2 ≤ 255 → 1 ≤ (s.reg SP).toNat →
      ∃ t, exec (.call r) s = .next t ∧ (t.readMem ((s.reg SP).toNat - 1)).toNat = s.pc.toNat + 2 ∧
        (t.reg SP).toNat = (s.reg SP).toNat - 1 ∧ t.pc = (if rr = SP then t.reg SP else s.reg rr) ∧
        Frame [SP] [(s.reg SP).toNat - 1] s t) ∧
    (255 < s.pc.toNat + 2 →
      exec (.call r) s = .next (s.fail (.outOfRange (.pc ((s.pc.toNat : Int) + 2))))) ∧
    (s.pc.toNat + 2 ≤ 255 → (s.reg SP).toNat = 0 →
      exec (.call r) s = .next (s.fail (.outOfRange (.sp (-1)))))

/-- RET (44_control.md R171): pc becomes the byte at SP and SP goes up by exactly one (C1); at SP = 255 it is OutOfRange
(D8). -/
def Obligations.ReturnPopsTheProgramCounter : Prop :=
  ∀ s : State,
    ((s.reg SP).toNat ≤ 254 →
      ∃ t, exec .ret s = .next t ∧ t.pc = s.readMem (s.reg SP).toNat ∧
        (t.reg SP).toNat = (s.reg SP).toNat + 1 ∧ Frame [SP] [] s t) ∧
    ((s.reg SP).toNat = 255 → exec .ret s = .next (s.fail (.outOfRange (.sp 256))))

/-- The call convention (44_control.md R170, R171; 90_conflicts.md C1): a CALL at p that is followed, after any code that
leaves SP and the pushed byte as the CALL left them, by RET resumes at p + 2 with SP restored. -/
def Obligations.CallThenReturnResumesAfterTheCall : Prop :=
  ∀ (r : Byte) (s t u : State), r.toNat < 8 → s.pc.toNat + 2 ≤ 255 → 1 ≤ (s.reg SP).toNat →
    exec (.call r) s = .next t → u.reg SP = t.reg SP →
    u.readMem (t.reg SP).toNat = t.readMem (t.reg SP).toNat →
    ∃ v, exec .ret u = .next v ∧ v.pc.toNat = s.pc.toNat + 2 ∧ v.reg SP = s.reg SP ∧ Frame [SP] [] u v

/-- JMP (44_control.md R172): pc becomes the register's byte, any of 0..255, and nothing else changes. -/
def Obligations.JumpGoesToTheRegister : Prop :=
  ∀ (r : Byte) (rr : RegIdx) (s : State), Names r rr →
    ∃ t, exec (.jmp r) s = .next t ∧ t.pc = s.reg rr ∧ Frame [] [] s t

/-- JEQ and JNE (44_control.md R173, R174): they read bit 0 of FL only; taken, pc becomes the register's byte; not taken,
pc + 2, which past 255 is OutOfRange (D9). Nothing else changes. -/
def Obligations.ConditionalJumpsReadTheEqualFlag : Prop :=
  ∀ (r : Byte) (rr : RegIdx) (s : State), Names r rr →
    (s.fl.getLsbD 0 = true →
      (∃ t, exec (.jeq r) s = .next t ∧ t.pc = s.reg rr ∧ Frame [] [] s t) ∧
      (s.pc.toNat + 2 ≤ 255 → ∃ t, exec (.jne r) s = .next t ∧ Frame [] [] s t ∧ Advanced 2 s t) ∧
      (255 < s.pc.toNat + 2 →
        exec (.jne r) s = .next (s.fail (.outOfRange (.pc ((s.pc.toNat : Int) + 2)))))) ∧
    (s.fl.getLsbD 0 = false →
      (∃ t, exec (.jne r) s = .next t ∧ t.pc = s.reg rr ∧ Frame [] [] s t) ∧
      (s.pc.toNat + 2 ≤ 255 → ∃ t, exec (.jeq r) s = .next t ∧ Frame [] [] s t ∧ Advanced 2 s t) ∧
      (255 < s.pc.toNat + 2 →
        exec (.jeq r) s = .next (s.fail (.outOfRange (.pc ((s.pc.toNat : Int) + 2))))))

/-- HLT (45_system.md R191): status becomes Halted and nothing else changes; that pc stays is D21. -/
def Obligations.HaltStopsTheLoop : Prop :=
  ∀ s : State, exec .hlt s = .next { s with status := .halted }

/-! ## Whole-machine rules -/

/-- FL is written only by CMP and IRET (10_state.md R25): no other instruction, and no poll or interrupt delivery, changes
it, whether or not the cycle ends in a fatal error. -/
def Obligations.OnlyCompareAndInterruptReturnWriteFlags : Prop :=
  (∀ (i : Instr) (s t : State), exec i s = .next t → (∀ a b, i ≠ .cmp a b) → i ≠ .iret → t.fl = s.fl) ∧
  (∀ (d : Draw) (s : State), (poll d s).fl = s.fl) ∧
  (∀ s t : State, interruptCheck s = .ok t ∨ interruptCheck s = .error t → t.fl = s.fl)

/-- Which instructions write memory and where, whether or not the cycle ends in a fatal error: ST the address in its first
register (42_data_io.md R142), PUSH and CALL the byte below SP (43_stack.md R160), no other instruction any byte. -/
def Obligations.OnlyStoresPushesAndCallsWriteMemory : Prop :=
  ∀ (i : Instr) (s t : State), exec i s = .next t →
    (∀ a b, i = .st a b → ∀ ra, Names a ra → MemSameBut [(s.reg ra).toNat] s t) ∧
    (∀ r, i = .push r ∨ i = .call r → MemSameBut [(s.reg SP).toNat - 1] s t) ∧
    ((∀ a b, i ≠ .st a b) → (∀ r, i ≠ .push r) → (∀ r, i ≠ .call r) → MemSameBut [] s t)

/-- The opcode table and the parameters never change (10_state.md R34): no step writes them. -/
def Obligations.StepKeepsTheConfiguration : Prop :=
  ∀ s t : State, step s = .next t → t.config = s.config

/-- The invariant: the parameters make one machine and memory is in its canonical form; every step keeps it, from every
state that has it, running or not. That memory is a sorted list with no entry equal to what an unlisted address reads
as is the model's choice, DESIGN CHOICE log 26, and so is holding the parameters in State (log 6): no rule of the spec
gives either. That the cells lie at 0..255 is 20_memory.md R40, and that each opcode byte selects one row is
30_encoding.md R64. -/
def Obligations.StepKeepsTheInvariant : Prop :=
  ∀ s t : State, s.Inv → step s = .next t → t.Inv

/-- The invariant holds after reset. Its canonical form of memory is the model's choice (DESIGN CHOICE, log 26), and the
parameters stand in State by log 6; the spec gives that every cell is 0 (10_state.md R32). -/
def Obligations.ResetSatisfiesTheInvariant : Prop :=
  State.reset.Inv

/-! ## Interrupts -/

/-- The poll (60_exceptions.md R204): a tick sets IS bit 0 and a key sets IS bit 1, whatever IM holds; a key's code is
written to 0xF4; nothing else changes; and it is the first step of every cycle. -/
def Obligations.PollSetsPendingBitsAndKeyCell : Prop :=
  ∀ (d : Draw) (s : State),
    (∀ k, k < 8 → ((poll d s).reg IS).getLsbD k =
      ((s.reg IS).getLsbD k || (d.tick && k == 0) || (d.key.isSome && k == 1))) ∧
    (∀ code, d.key = some code → (poll d s).readMem 0xF4 = code ∧ MemSameBut [0xF4] s (poll d s)) ∧
    (d.key = none → MemSameBut [] s (poll d s)) ∧
    RegsSameBut [IS] s (poll d s) ∧ (poll d s).pc = s.pc ∧ (poll d s).fl = s.fl ∧ (poll d s).out = s.out ∧
    ControlSame s (poll d s) ∧
    (∀ t, interruptCheck (poll d s) = .ok t → cycle d s = executeOne t) ∧
    (∀ t, interruptCheck (poll d s) = .error t → cycle d s = .next t)

/-- The interrupt check (60_exceptions.md R207): the lowest bit of IM & IS is delivered, one per check (D4); with no such
bit, or while the latch of a latched machine is set (R212, D7), the state is unchanged: masked interrupts stay
pending (R203). -/
def Obligations.LowestEnabledPendingInterruptIsDelivered : Prop :=
  ∀ s : State,
    (∀ i : RegIdx, (s.config.nestedInterruptLatch && s.latch) = false →
      ((s.reg IM).getLsbD i.val && (s.reg IS).getLsbD i.val) = true →
      (∀ j : RegIdx, j.val < i.val → ((s.reg IM).getLsbD j.val && (s.reg IS).getLsbD j.val) = false) →
      interruptCheck s = deliver i s) ∧
    ((∀ j : RegIdx, ((s.reg IM).getLsbD j.val && (s.reg IS).getLsbD j.val) = false) →
      interruptCheck s = .ok s) ∧
    ((s.config.nestedInterruptLatch && s.latch) = true → interruptCheck s = .ok s)

/-- Delivery (60_exceptions.md R208, R210): the IS bit is cleared, the 8 bytes below SP hold pc, FL, R5 down to R0 (D6),
pc is the byte at the vector slot, the latch of a latched machine is set (D7), and nothing else changes. For the
interrupts 2..7 the slot 0xF8 + i is the spec's value of VEC(i) (D5). -/
def Obligations.DeliveryPushesTheInterruptFrame : Prop :=
  ∀ (s : State) (i : RegIdx), 8 ≤ (s.reg SP).toNat →
    ∃ t, deliver i s = .ok t ∧ (t.reg SP).toNat = (s.reg SP).toNat - 8 ∧
      t.readMem ((s.reg SP).toNat - 1) = s.pc ∧ t.readMem ((s.reg SP).toNat - 2) = s.fl ∧
      (∀ r : RegIdx, r.val ≤ 5 → t.readMem ((s.reg SP).toNat - 8 + r.val) = s.reg r) ∧
      (∀ k : RegIdx, (t.reg IS).getLsbD k.val = ((s.reg IS).getLsbD k.val && k != i)) ∧
      (i.val < 2 ∨ s.config.highVectors = specConfig.highVectors → t.pc = t.readMem (0xF8 + i.val)) ∧
      RegsSameBut [IS, SP] s t ∧ MemSameBut ((List.range 8).map ((s.reg SP).toNat - 8 + ·)) s t ∧
      t.fl = s.fl ∧ t.out = s.out ∧ t.status = s.status ∧ t.config = s.config ∧ t.host = s.host ∧
      t.draws = s.draws ∧ t.polls = s.polls ∧ t.latch = (s.config.nestedInterruptLatch || s.latch)

/-- A delivery without 8 bytes of room below SP is OutOfRange (60_exceptions.md R208, R210; D8), and the cycle of a Running
block that makes it ends Failed. -/
def Obligations.DeliveryWithoutRoomFails : Prop :=
  (∀ (s : State) (i : RegIdx), (s.reg SP).toNat < 8 →
    ∃ t, deliver i s = .error t ∧ t.status = .failed (.outOfRange (.sp (-1)))) ∧
  (∀ (s : State) (i : RegIdx), s.status = .running → dueInterrupt (poll s.nextDraw s.takeDraw) = some i →
    ((s.reg SP).toNat < 8 → Fails (step s) (.outOfRange (.sp (-1)))))

/-- IRET (45_system.md R190): R0 up to R5, FL whole (D13) and pc come from the 8 bytes at SP upward (D6), SP goes up by 8,
the latch of a latched machine is cleared (D7); IS, memory and the rest are unchanged. -/
def Obligations.InterruptReturnPopsTheFrame : Prop :=
  ∀ s : State,
    ((s.reg SP).toNat ≤ 0xF7 →
      ∃ t, exec .iret s = .next t ∧ (t.reg SP).toNat = (s.reg SP).toNat + 8 ∧
        (∀ r : RegIdx, r.val ≤ 5 → t.reg r = s.readMem ((s.reg SP).toNat + r.val)) ∧
        t.reg IS = s.reg IS ∧ t.fl = s.readMem ((s.reg SP).toNat + 6) ∧
        t.pc = s.readMem ((s.reg SP).toNat + 7) ∧ MemSameBut [] s t ∧ t.out = s.out ∧
        t.status = s.status ∧ t.config = s.config ∧ t.host = s.host ∧ t.draws = s.draws ∧ t.polls = s.polls ∧
        t.latch = (!s.config.nestedInterruptLatch && s.latch)) ∧
    (0xF7 < (s.reg SP).toNat → Fails (exec .iret s) (.outOfRange (.sp 256)))

/-- The round trip (60_exceptions.md R213): after a delivery, whatever the handler does, if on reaching IRET SP and the 8
frame bytes are as the delivery left them, IRET restores pc, FL, R0..R5 and SP to their values before the delivery,
and leaves IS and memory as the handler left them. -/
def Obligations.DeliveryThenInterruptReturnRestores : Prop :=
  ∀ (s t u : State) (i : RegIdx), deliver i s = .ok t → u.reg SP = t.reg SP →
    (∀ k, k < 8 → u.readMem ((t.reg SP).toNat + k) = t.readMem ((t.reg SP).toNat + k)) →
    ∃ v, exec .iret u = .next v ∧ v.pc = s.pc ∧ v.fl = s.fl ∧ (∀ r : RegIdx, r.val ≤ 5 → v.reg r = s.reg r) ∧
      v.reg SP = s.reg SP ∧ v.reg IS = u.reg IS ∧ (t.reg IS).getLsbD i.val = false ∧ MemSameBut [] u v
end

