-- ==== Sys2Proof/Laws/State.lean ====
section
/-! SUPPORT. What each update of State does to each field and to the accessors, so that no proof unfolds a record
update. -/

namespace Sys2Proof.Machine

@[simp] theorem State.setReg_pc (s : State) (r : RegIdx) (v : Byte) : (s.setReg r v).pc = s.pc := rfl
@[simp] theorem State.setReg_fl (s : State) (r : RegIdx) (v : Byte) : (s.setReg r v).fl = s.fl := rfl
@[simp] theorem State.setReg_mem (s : State) (r : RegIdx) (v : Byte) : (s.setReg r v).mem = s.mem := rfl
@[simp] theorem State.setReg_status (s : State) (r : RegIdx) (v : Byte) : (s.setReg r v).status = s.status := rfl
@[simp] theorem State.setReg_out (s : State) (r : RegIdx) (v : Byte) : (s.setReg r v).out = s.out := rfl
@[simp] theorem State.setReg_latch (s : State) (r : RegIdx) (v : Byte) : (s.setReg r v).latch = s.latch := rfl
@[simp] theorem State.setReg_config (s : State) (r : RegIdx) (v : Byte) : (s.setReg r v).config = s.config := rfl
@[simp] theorem State.setReg_host (s : State) (r : RegIdx) (v : Byte) : (s.setReg r v).host = s.host := rfl
@[simp] theorem State.setReg_draws (s : State) (r : RegIdx) (v : Byte) : (s.setReg r v).draws = s.draws := rfl
@[simp] theorem State.setReg_polls (s : State) (r : RegIdx) (v : Byte) : (s.setReg r v).polls = s.polls := rfl
@[simp] theorem State.setReg_readMem (s : State) (r : RegIdx) (v : Byte) (x : Nat) : (s.setReg r v).readMem x = s.readMem x := rfl

@[simp] theorem State.setPc_regs (s : State) (v : Byte) : (s.setPc v).regs = s.regs := rfl
@[simp] theorem State.setPc_pc (s : State) (v : Byte) : (s.setPc v).pc = v := rfl
@[simp] theorem State.setPc_fl (s : State) (v : Byte) : (s.setPc v).fl = s.fl := rfl
@[simp] theorem State.setPc_mem (s : State) (v : Byte) : (s.setPc v).mem = s.mem := rfl
@[simp] theorem State.setPc_status (s : State) (v : Byte) : (s.setPc v).status = s.status := rfl
@[simp] theorem State.setPc_out (s : State) (v : Byte) : (s.setPc v).out = s.out := rfl
@[simp] theorem State.setPc_latch (s : State) (v : Byte) : (s.setPc v).latch = s.latch := rfl
@[simp] theorem State.setPc_config (s : State) (v : Byte) : (s.setPc v).config = s.config := rfl
@[simp] theorem State.setPc_host (s : State) (v : Byte) : (s.setPc v).host = s.host := rfl
@[simp] theorem State.setPc_draws (s : State) (v : Byte) : (s.setPc v).draws = s.draws := rfl
@[simp] theorem State.setPc_polls (s : State) (v : Byte) : (s.setPc v).polls = s.polls := rfl
@[simp] theorem State.setPc_reg (s : State) (v : Byte) (q : RegIdx) : (s.setPc v).reg q = s.reg q := rfl
@[simp] theorem State.setPc_readMem (s : State) (v : Byte) (x : Nat) : (s.setPc v).readMem x = s.readMem x := rfl

@[simp] theorem State.setFl_regs (s : State) (v : Byte) : (s.setFl v).regs = s.regs := rfl
@[simp] theorem State.setFl_pc (s : State) (v : Byte) : (s.setFl v).pc = s.pc := rfl
@[simp] theorem State.setFl_fl (s : State) (v : Byte) : (s.setFl v).fl = v := rfl
@[simp] theorem State.setFl_mem (s : State) (v : Byte) : (s.setFl v).mem = s.mem := rfl
@[simp] theorem State.setFl_status (s : State) (v : Byte) : (s.setFl v).status = s.status := rfl
@[simp] theorem State.setFl_out (s : State) (v : Byte) : (s.setFl v).out = s.out := rfl
@[simp] theorem State.setFl_latch (s : State) (v : Byte) : (s.setFl v).latch = s.latch := rfl
@[simp] theorem State.setFl_config (s : State) (v : Byte) : (s.setFl v).config = s.config := rfl
@[simp] theorem State.setFl_host (s : State) (v : Byte) : (s.setFl v).host = s.host := rfl
@[simp] theorem State.setFl_draws (s : State) (v : Byte) : (s.setFl v).draws = s.draws := rfl
@[simp] theorem State.setFl_polls (s : State) (v : Byte) : (s.setFl v).polls = s.polls := rfl
@[simp] theorem State.setFl_reg (s : State) (v : Byte) (q : RegIdx) : (s.setFl v).reg q = s.reg q := rfl
@[simp] theorem State.setFl_readMem (s : State) (v : Byte) (x : Nat) : (s.setFl v).readMem x = s.readMem x := rfl

@[simp] theorem State.setStatus_regs (s : State) (st : Status) : (s.setStatus st).regs = s.regs := rfl
@[simp] theorem State.setStatus_pc (s : State) (st : Status) : (s.setStatus st).pc = s.pc := rfl
@[simp] theorem State.setStatus_fl (s : State) (st : Status) : (s.setStatus st).fl = s.fl := rfl
@[simp] theorem State.setStatus_mem (s : State) (st : Status) : (s.setStatus st).mem = s.mem := rfl
@[simp] theorem State.setStatus_status (s : State) (st : Status) : (s.setStatus st).status = st := rfl
@[simp] theorem State.setStatus_out (s : State) (st : Status) : (s.setStatus st).out = s.out := rfl
@[simp] theorem State.setStatus_latch (s : State) (st : Status) : (s.setStatus st).latch = s.latch := rfl
@[simp] theorem State.setStatus_config (s : State) (st : Status) : (s.setStatus st).config = s.config := rfl
@[simp] theorem State.setStatus_host (s : State) (st : Status) : (s.setStatus st).host = s.host := rfl
@[simp] theorem State.setStatus_draws (s : State) (st : Status) : (s.setStatus st).draws = s.draws := rfl
@[simp] theorem State.setStatus_polls (s : State) (st : Status) : (s.setStatus st).polls = s.polls := rfl
@[simp] theorem State.setStatus_reg (s : State) (st : Status) (q : RegIdx) : (s.setStatus st).reg q = s.reg q := rfl
@[simp] theorem State.setStatus_readMem (s : State) (st : Status) (x : Nat) : (s.setStatus st).readMem x = s.readMem x := rfl

@[simp] theorem State.writeMem_regs (s : State) (a : Nat) (v : Byte) : (s.writeMem a v).regs = s.regs := rfl
@[simp] theorem State.writeMem_pc (s : State) (a : Nat) (v : Byte) : (s.writeMem a v).pc = s.pc := rfl
@[simp] theorem State.writeMem_fl (s : State) (a : Nat) (v : Byte) : (s.writeMem a v).fl = s.fl := rfl
@[simp] theorem State.writeMem_mem (s : State) (a : Nat) (v : Byte) : (s.writeMem a v).mem = s.mem.write a v := rfl
@[simp] theorem State.writeMem_status (s : State) (a : Nat) (v : Byte) : (s.writeMem a v).status = s.status := rfl
@[simp] theorem State.writeMem_out (s : State) (a : Nat) (v : Byte) : (s.writeMem a v).out = s.out := rfl
@[simp] theorem State.writeMem_latch (s : State) (a : Nat) (v : Byte) : (s.writeMem a v).latch = s.latch := rfl
@[simp] theorem State.writeMem_config (s : State) (a : Nat) (v : Byte) : (s.writeMem a v).config = s.config := rfl
@[simp] theorem State.writeMem_host (s : State) (a : Nat) (v : Byte) : (s.writeMem a v).host = s.host := rfl
@[simp] theorem State.writeMem_draws (s : State) (a : Nat) (v : Byte) : (s.writeMem a v).draws = s.draws := rfl
@[simp] theorem State.writeMem_polls (s : State) (a : Nat) (v : Byte) : (s.writeMem a v).polls = s.polls := rfl
@[simp] theorem State.writeMem_reg (s : State) (a : Nat) (v : Byte) (q : RegIdx) : (s.writeMem a v).reg q = s.reg q := rfl

@[simp] theorem State.fail_regs (s : State) (e : FatalError) : (s.fail e).regs = s.regs := rfl
@[simp] theorem State.fail_pc (s : State) (e : FatalError) : (s.fail e).pc = s.pc := rfl
@[simp] theorem State.fail_fl (s : State) (e : FatalError) : (s.fail e).fl = s.fl := rfl
@[simp] theorem State.fail_mem (s : State) (e : FatalError) : (s.fail e).mem = s.mem := rfl
@[simp] theorem State.fail_status (s : State) (e : FatalError) : (s.fail e).status = .failed e := rfl
@[simp] theorem State.fail_out (s : State) (e : FatalError) : (s.fail e).out = s.out := rfl
@[simp] theorem State.fail_latch (s : State) (e : FatalError) : (s.fail e).latch = s.latch := rfl
@[simp] theorem State.fail_config (s : State) (e : FatalError) : (s.fail e).config = s.config := rfl
@[simp] theorem State.fail_host (s : State) (e : FatalError) : (s.fail e).host = s.host := rfl
@[simp] theorem State.fail_draws (s : State) (e : FatalError) : (s.fail e).draws = s.draws := rfl
@[simp] theorem State.fail_polls (s : State) (e : FatalError) : (s.fail e).polls = s.polls := rfl
@[simp] theorem State.fail_reg (s : State) (e : FatalError) (q : RegIdx) : (s.fail e).reg q = s.reg q := rfl
@[simp] theorem State.fail_readMem (s : State) (e : FatalError) (x : Nat) : (s.fail e).readMem x = s.readMem x := rfl

@[simp] theorem State.takeDraw_regs (s : State) : (s.takeDraw).regs = s.regs := rfl
@[simp] theorem State.takeDraw_pc (s : State) : (s.takeDraw).pc = s.pc := rfl
@[simp] theorem State.takeDraw_fl (s : State) : (s.takeDraw).fl = s.fl := rfl
@[simp] theorem State.takeDraw_mem (s : State) : (s.takeDraw).mem = s.mem := rfl
@[simp] theorem State.takeDraw_status (s : State) : (s.takeDraw).status = s.status := rfl
@[simp] theorem State.takeDraw_out (s : State) : (s.takeDraw).out = s.out := rfl
@[simp] theorem State.takeDraw_latch (s : State) : (s.takeDraw).latch = s.latch := rfl
@[simp] theorem State.takeDraw_config (s : State) : (s.takeDraw).config = s.config := rfl
@[simp] theorem State.takeDraw_host (s : State) : (s.takeDraw).host = s.host := rfl
@[simp] theorem State.takeDraw_draws (s : State) : (s.takeDraw).draws = s.draws.tail := rfl
@[simp] theorem State.takeDraw_polls (s : State) : (s.takeDraw).polls = s.polls + 1 := rfl
@[simp] theorem State.takeDraw_reg (s : State) (q : RegIdx) : (s.takeDraw).reg q = s.reg q := rfl
@[simp] theorem State.takeDraw_readMem (s : State) (x : Nat) : (s.takeDraw).readMem x = s.readMem x := rfl

@[simp] theorem emit_regs (s : State) (k : OutKind) (v : Byte) : (emit k v s).regs = s.regs := rfl
@[simp] theorem emit_pc (s : State) (k : OutKind) (v : Byte) : (emit k v s).pc = s.pc := rfl
@[simp] theorem emit_fl (s : State) (k : OutKind) (v : Byte) : (emit k v s).fl = s.fl := rfl
@[simp] theorem emit_mem (s : State) (k : OutKind) (v : Byte) : (emit k v s).mem = s.mem := rfl
@[simp] theorem emit_status (s : State) (k : OutKind) (v : Byte) : (emit k v s).status = s.status := rfl
@[simp] theorem emit_out (s : State) (k : OutKind) (v : Byte) : (emit k v s).out = s.out ++ [OutRecord.mk k v] := rfl
@[simp] theorem emit_latch (s : State) (k : OutKind) (v : Byte) : (emit k v s).latch = s.latch := rfl
@[simp] theorem emit_config (s : State) (k : OutKind) (v : Byte) : (emit k v s).config = s.config := rfl
@[simp] theorem emit_host (s : State) (k : OutKind) (v : Byte) : (emit k v s).host = s.host := rfl
@[simp] theorem emit_draws (s : State) (k : OutKind) (v : Byte) : (emit k v s).draws = s.draws := rfl
@[simp] theorem emit_polls (s : State) (k : OutKind) (v : Byte) : (emit k v s).polls = s.polls := rfl
@[simp] theorem emit_reg (s : State) (k : OutKind) (v : Byte) (q : RegIdx) : (emit k v s).reg q = s.reg q := rfl
@[simp] theorem emit_readMem (s : State) (k : OutKind) (v : Byte) (x : Nat) : (emit k v s).readMem x = s.readMem x := rfl

/-- A register reads what was last written to it, and the others read as before (10_state.md R20, R22). -/
theorem State.reg_setReg (s : State) (r : RegIdx) (v : Byte) (q : RegIdx) :
    (s.setReg r v).reg q = if r = q then v else s.reg q := by
  simp [State.reg, State.setReg, Vector.getElem_set, Fin.ext_iff]

@[simp] theorem State.reg_setReg_same (s : State) (r : RegIdx) (v : Byte) : (s.setReg r v).reg r = v := by
  simp [State.reg_setReg]

theorem State.reg_setReg_other (s : State) {r q : RegIdx} (v : Byte) (h : q ≠ r) :
    (s.setReg r v).reg q = s.reg q := by
  simp [State.reg_setReg, Ne.symm h]

@[simp] theorem State.setReg_setReg (s : State) (r : RegIdx) (v w : Byte) :
    (s.setReg r v).setReg r w = s.setReg r w := by
  simp [State.setReg]

@[simp] theorem setLatch_reg (s : State) (v : Bool) (q : RegIdx) : (setLatch v s).reg q = s.reg q := by
  unfold setLatch; split <;> rfl
@[simp] theorem setLatch_regs (s : State) (v : Bool) : (setLatch v s).regs = s.regs := by
  unfold setLatch; split <;> rfl
@[simp] theorem setLatch_pc (s : State) (v : Bool) : (setLatch v s).pc = s.pc := by
  unfold setLatch; split <;> rfl
@[simp] theorem setLatch_fl (s : State) (v : Bool) : (setLatch v s).fl = s.fl := by
  unfold setLatch; split <;> rfl
@[simp] theorem setLatch_mem (s : State) (v : Bool) : (setLatch v s).mem = s.mem := by
  unfold setLatch; split <;> rfl
@[simp] theorem setLatch_status (s : State) (v : Bool) : (setLatch v s).status = s.status := by
  unfold setLatch; split <;> rfl
@[simp] theorem setLatch_out (s : State) (v : Bool) : (setLatch v s).out = s.out := by
  unfold setLatch; split <;> rfl

/-- The latch is written only when the machine has one (60_exceptions.md R212). -/
@[simp] theorem setLatch_latch (s : State) (v : Bool) :
    (setLatch v s).latch = if s.config.nestedInterruptLatch then v else s.latch := by
  unfold setLatch; split <;> rfl

@[simp] theorem setLatch_config (s : State) (v : Bool) : (setLatch v s).config = s.config := by
  unfold setLatch; split <;> rfl
@[simp] theorem setLatch_host (s : State) (v : Bool) : (setLatch v s).host = s.host := by
  unfold setLatch; split <;> rfl
@[simp] theorem setLatch_draws (s : State) (v : Bool) : (setLatch v s).draws = s.draws := by
  unfold setLatch; split <;> rfl
@[simp] theorem setLatch_polls (s : State) (v : Bool) : (setLatch v s).polls = s.polls := by
  unfold setLatch; split <;> rfl
@[simp] theorem setLatch_readMem (s : State) (v : Bool) (x : Nat) : (setLatch v s).readMem x = s.readMem x := by
  unfold setLatch; split <;> rfl

end Sys2Proof.Machine
end

