-- ==== Sys2Proof/Laws/Decode.lean ====
section
/-! SUPPORT. The opcode map read both ways, and the fetched bytes. -/

namespace Sys2Proof

/-- In a list of pairs with distinct keys, a pair that is there is what its key looks up. -/
theorem lookup_of_mem {l : List (Byte × Op)} (h : (l.map Prod.fst).Nodup) {b : Byte} {op : Op}
    (hm : (b, op) ∈ l) : l.lookup b = some op := by
  induction l with
  | nil => simp at hm
  | cons c l ih =>
    obtain ⟨k, o⟩ := c
    simp only [List.map_cons, List.nodup_cons] at h
    rcases List.mem_cons.1 hm with hm | hm
    · simp only [Prod.mk.injEq] at hm
      simp [hm.1, hm.2]
    · have hk : b ≠ k := fun e => h.1 (List.mem_map.2 ⟨(b, op), hm, e⟩)
      have hk : (b == k) = false := by simpa using hk
      simp [List.lookup_cons, hk, ih h.2 hm]

theorem mem_of_lookup {l : List (Byte × Op)} {b : Byte} {op : Op} (h : l.lookup b = some op) : (b, op) ∈ l := by
  induction l with
  | nil => simp at h
  | cons c l ih =>
    obtain ⟨k, o⟩ := c
    by_cases hb : b = k
    · simp [hb] at h
      simp [hb, h]
    · have : (b == k) = false := by simpa using hb
      simp only [List.lookup_cons, this] at h
      simp [ih h]

/-- The byte of a dispatched handler is in the map. -/
theorem mem_of_opcodeOf {c : Config} {op : Op} {b : Byte} (h : opcodeOf c op = some b) (ha : op ≠ .addi) :
    (b, op) ∈ c.opcodeMap ∧ c.dispatches op = true := by
  simp only [opcodeOf, ha, if_false] at h
  split at h
  · rename_i hd
    obtain ⟨row, hf, rfl⟩ := Option.map_eq_some_iff.1 h
    have hm := List.mem_of_find?_eq_some hf
    have hp := List.find?_some hf
    simp only [beq_iff_eq] at hp
    exact ⟨by rw [← hp]; exact hm, hd⟩
  · simp at h

/-- The handler of a pair is what its byte's row is found by. -/
theorem find_of_mem {l : List (Byte × Op)} (h : (l.map Prod.snd).Nodup) {b : Byte} {op : Op} (hm : (b, op) ∈ l) :
    l.find? (fun row => row.2 == op) = some (b, op) := by
  induction l with
  | nil => simp at hm
  | cons c l ih =>
    obtain ⟨k, o⟩ := c
    simp only [List.map_cons, List.nodup_cons] at h
    rcases List.mem_cons.1 hm with hm | hm
    · simp only [Prod.mk.injEq] at hm
      simp [hm.1, hm.2]
    · have : o ≠ op := by
        rintro rfl
        exact h.1 (List.mem_map.2 ⟨_, hm, rfl⟩)
      simp [this, ih h.2 hm]

/-- What the check of a configuration says (30_encoding.md R64, 00_scope.md R8). -/
theorem Config.wf_parts {c : Config} (h : c.wf = true) :
    (c.opcodeMap.map Prod.fst).Nodup ∧ (c.opcodeMap.map Prod.snd).Nodup ∧ c.opcAddi ∉ c.opcodeMap.map Prod.fst ∧
      Op.addi ∉ c.opcodeMap.map Prod.snd ∧ ∀ op : Op, op ≠ .addi → op ∈ c.opcodeMap.map Prod.snd := by
  simp only [Config.wf, Bool.and_eq_true, decide_eq_true_eq, List.all_eq_true, Bool.or_eq_true, beq_iff_eq] at h
  obtain ⟨⟨⟨⟨h1, h2⟩, h3⟩, h4⟩, h5⟩ := h
  exact ⟨h1, h2, h3, h4, fun op hop => (h5 op (by cases op <;> decide)).resolve_left hop⟩

/-- A dispatched handler of a legal configuration has an opcode byte, and that byte selects it. -/
theorem opcodeOf_lookup {c : Config} {op : Op} (h : c.wf = true) (hd : c.dispatches op = true) :
    ∃ b, opcodeOf c op = some b ∧ lookup c b = some op := by
  obtain ⟨h1, h2, h3, -, h5⟩ := Config.wf_parts h
  by_cases ha : op = .addi
  · subst ha
    exact ⟨c.opcAddi, by simp [opcodeOf], by simp [lookup]⟩
  · obtain ⟨⟨b, o⟩, hm, rfl⟩ := List.mem_map.1 (h5 op ha)
    have hb : b ≠ c.opcAddi := by
      rintro rfl
      exact h3 (List.mem_map.2 ⟨_, hm, rfl⟩)
    refine ⟨b, ?_, ?_⟩
    · simp only at ha hd ⊢
      simp [opcodeOf, ha, hd, find_of_mem h2 hm]
    · simp only at ha hd ⊢
      simp [lookup, hb, lookup_of_mem h1 hm, hd]

/-- The operand bytes read are those of the instruction they were read as (30_encoding.md R61). -/
theorem decodeOperands_inv {op : Op} {l rest : List Byte} {i : Instr} (h : decodeOperands op l = .ok (i, rest)) :
    i.op = op ∧ l = i.operandBytes ++ rest := by
  cases op <;> rcases l with _ | ⟨x, _ | ⟨y, l⟩⟩ <;>
    simp [decodeOperands, Op.operandCount, Op.format, Format.operandCount] at h <;>
    (obtain ⟨rfl, rfl⟩ := h; exact ⟨rfl, rfl⟩)

/-- A handler has 0, 1 or 2 operand bytes (30_encoding.md R60). -/
theorem Op.operandCount_le (op : Op) : op.operandCount ≤ 2 := by cases op <;> decide

end Sys2Proof

namespace Sys2Proof.Machine

/-- The first fetched byte is the one at pc (40_dispatch.md R82). -/
theorem fetchBytes_cons (s : State) :
    fetchBytes s = s.readMem s.pc.toNat :: s.mem.window (s.pc.toNat + 1) 2 := by
  rw [fetchBytes, Memory.window, if_pos s.pc.isLt]
  rfl

/-- The operand bytes of a handler, read from the fetched window: the bytes at pc + 1 and pc + 2, as far as they lie below
256 (40_dispatch.md R83). -/
theorem decodeOperands_window (s : State) (op : Op) :
    (s.pc.toNat + op.operandCount ≤ 255 → ∃ rest, decodeOperands op (s.mem.window (s.pc.toNat + 1) 2) =
      .ok (assemble op (s.readMem (s.pc.toNat + 1)) (s.readMem (s.pc.toNat + 2)), rest)) ∧
    (255 < s.pc.toNat + op.operandCount → ∃ k : Nat, s.pc.toNat + k = 256 ∧
      decodeOperands op (s.mem.window (s.pc.toNat + 1) 2) = .error (.missingOperand k)) := by
  have hpc := s.pc.isLt
  have hop := op.operandCount_le
  rcases Nat.lt_trichotomy s.pc.toNat 254 with h | h | h
  · have hw : s.mem.window (s.pc.toNat + 1) 2 = [s.readMem (s.pc.toNat + 1), s.readMem (s.pc.toNat + 2)] := by
      simp [Memory.window, State.readMem, show s.pc.toNat + 1 < 256 by omega, show s.pc.toNat + 1 + 1 < 256 by omega]
    refine ⟨fun _ => ?_, fun hp => by omega⟩
    rw [hw]
    cases op <;> exact ⟨_, rfl⟩
  · have hw : s.mem.window (s.pc.toNat + 1) 2 = [s.readMem (s.pc.toNat + 1)] := by
      simp [Memory.window, State.readMem, h]
    rw [hw]
    refine ⟨fun hp => ?_, fun hp => ⟨2, by omega, ?_⟩⟩
    · have hc : op.operandCount ≤ 1 := by omega
      cases op <;> first | exact ⟨_, rfl⟩ | (exact absurd hc (by decide))
    · have hc : 2 ≤ op.operandCount := by omega
      cases op <;> first | rfl | (exact absurd hc (by decide))
  · have hw : s.mem.window (s.pc.toNat + 1) 2 = [] := by
      simp [Memory.window, show ¬ s.pc.toNat + 1 < 256 by omega]
    rw [hw]
    refine ⟨fun hp => ?_, fun hp => ⟨1, by omega, ?_⟩⟩
    · have hc : op.operandCount ≤ 0 := by omega
      cases op <;> first | exact ⟨_, rfl⟩ | (exact absurd hc (by decide))
    · have hc : 1 ≤ op.operandCount := by omega
      cases op <;> first | rfl | (exact absurd hc (by decide))

end Sys2Proof.Machine
end

