-- ==== Sys2Proof/Laws/Memory.lean ====
section
/-! SUPPORT. Memory: a read gives the last write (20_memory.md R50), and every write keeps the canonical form. -/

namespace Sys2Proof.Machine

theorem Memory.read_insert_same (m : Memory) (a : Nat) (v : Byte) (h : ∀ c ∈ m, c.1 ≠ a) :
    (m.insert a v).read a = v := by
  induction m with
  | nil => simp [Memory.insert, Memory.read]
  | cons c m ih =>
    obtain ⟨k, w⟩ := c
    have hk : k ≠ a := h (k, w) (by simp)
    have ih := ih fun c hc => h c (by simp [hc])
    by_cases hlt : a < k <;> simp [Memory.insert, Memory.read, hlt, hk, ih]

theorem Memory.read_insert_other (m : Memory) {a b : Nat} (v : Byte) (h : b ≠ a) :
    (m.insert a v).read b = m.read b := by
  induction m with
  | nil => simp [Memory.insert, Memory.read, Ne.symm h]
  | cons c m ih =>
    obtain ⟨k, w⟩ := c
    by_cases hlt : a < k <;> simp [Memory.insert, Memory.read, hlt, ih, Ne.symm h]

theorem Memory.read_filter_same (m : Memory) (a : Nat) :
    Memory.read (m.filter fun c => c.1 != a) a = Memory.unlisted := by
  induction m with
  | nil => rfl
  | cons c m ih =>
    obtain ⟨k, w⟩ := c
    by_cases hk : k = a <;> simp [Memory.read, hk, ih]

theorem Memory.read_filter_other (m : Memory) {a b : Nat} (h : b ≠ a) :
    Memory.read (m.filter fun c => c.1 != a) b = m.read b := by
  induction m with
  | nil => rfl
  | cons c m ih =>
    obtain ⟨k, w⟩ := c
    by_cases hk : k = a
    · subst hk; simp [Memory.read, ih, Ne.symm h]
    · simp [Memory.read, hk, ih]

/-- A read after a write (20_memory.md R50), of every list, canonical or not. -/
theorem Memory.read_write (m : Memory) (a : Nat) (v : Byte) (b : Nat) :
    (m.write a v).read b = if b = a then v else m.read b := by
  unfold Memory.write
  by_cases hb : b = a
  · subst hb
    by_cases hv : v = Memory.unlisted
    · simp [hv, Memory.read_filter_same]
    · simp only [hv, if_false, if_true]
      exact Memory.read_insert_same _ _ _ (by simp)
  · by_cases hv : v = Memory.unlisted
    · simp [hv, hb, Memory.read_filter_other _ hb]
    · simp [hv, hb, Memory.read_insert_other _ _ hb, Memory.read_filter_other _ hb]

theorem State.readMem_writeMem (s : State) (a : Nat) (v : Byte) (b : Nat) :
    (s.writeMem a v).readMem b = if b = a then v else s.readMem b :=
  Memory.read_write s.mem a v b

@[simp] theorem State.readMem_writeMem_same (s : State) (a : Nat) (v : Byte) : (s.writeMem a v).readMem a = v := by
  simp [State.readMem_writeMem]

theorem State.readMem_writeMem_other (s : State) {a b : Nat} (v : Byte) (h : b ≠ a) :
    (s.writeMem a v).readMem b = s.readMem b := by
  simp [State.readMem_writeMem, h]

theorem Memory.wf_iff (m : Memory) :
    Memory.wf m = true ↔ m.Pairwise (fun x y => x.1 < y.1) ∧ ∀ c ∈ m, c.1 < 256 ∧ c.2 ≠ Memory.unlisted := by
  simp [Memory.wf]

theorem Memory.mem_insert {m : Memory} {a : Nat} {v : Byte} {c : Host.Cell} (h : c ∈ m.insert a v) :
    c = (a, v) ∨ c ∈ m := by
  induction m with
  | nil => simpa [Memory.insert] using h
  | cons d m ih =>
    obtain ⟨k, w⟩ := d
    unfold Memory.insert at h
    split at h
    · simpa using h
    · rcases List.mem_cons.1 h with h | h
      · simp [h]
      · rcases ih h with h | h <;> simp [h]

theorem Memory.insert_sorted {m : Memory} {a : Nat} (v : Byte) (h : m.Pairwise fun x y => x.1 < y.1)
    (ha : ∀ c ∈ m, c.1 ≠ a) : (m.insert a v).Pairwise fun x y => x.1 < y.1 := by
  induction m with
  | nil => simp [Memory.insert]
  | cons d m ih =>
    obtain ⟨k, w⟩ := d
    obtain ⟨hk, hm⟩ := List.pairwise_cons.1 h
    unfold Memory.insert
    split
    · rename_i hlt
      refine List.pairwise_cons.2 ⟨fun c hc => ?_, h⟩
      rcases List.mem_cons.1 hc with rfl | hc
      · exact hlt
      · exact Nat.lt_trans hlt (hk c hc)
    · rename_i hge
      refine List.pairwise_cons.2 ⟨fun c hc => ?_, ih hm fun c hc => ha c (by simp [hc])⟩
      rcases Memory.mem_insert hc with rfl | hc
      · have : k ≠ a := ha (k, w) (by simp)
        change k < a
        omega
      · exact hk c hc

/-- Every write keeps the canonical form. -/
theorem Memory.write_wf {m : Memory} {a : Nat} (v : Byte) (h : Memory.wf m = true) (ha : a < 256) :
    Memory.wf (m.write a v) = true := by
  obtain ⟨hs, hc⟩ := (Memory.wf_iff m).1 h
  have hs' : (m.filter fun c => c.1 != a).Pairwise fun x y => x.1 < y.1 := hs.sublist List.filter_sublist
  have hc' : ∀ c ∈ m.filter (fun c => c.1 != a), c.1 < 256 ∧ c.2 ≠ Memory.unlisted :=
    fun c hm => hc c (List.mem_filter.1 hm).1
  rw [Memory.wf_iff]
  unfold Memory.write
  split
  · exact ⟨hs', hc'⟩
  · rename_i hv
    refine ⟨Memory.insert_sorted v hs' (by simp), fun c hm => ?_⟩
    rcases Memory.mem_insert hm with rfl | hm
    · exact ⟨ha, hv⟩
    · exact hc' c hm

/-- The preload of an image that fits keeps the canonical form. -/
theorem Memory.writeFrom_wf {m : Memory} (a : Nat) (bs : List Byte) (h : Memory.wf m = true)
    (ha : a + bs.length ≤ 256) : Memory.wf (m.writeFrom a bs) = true := by
  induction bs generalizing m a with
  | nil => exact h
  | cons b bs ih =>
    simp only [List.length_cons] at ha
    exact ih (a + 1) (Memory.write_wf b h (by omega)) (by omega)

/-- The preload puts byte `k` of the image at address `a + k` and leaves every other cell (70_reset_and_hazards.md
R251). -/
theorem Memory.read_writeFrom (m : Memory) (a : Nat) (bs : List Byte) (b : Nat) :
    (m.writeFrom a bs).read b = if a ≤ b then (bs[b - a]?).getD (m.read b) else m.read b := by
  induction bs generalizing m a with
  | nil => simp [Memory.writeFrom]
  | cons x bs ih =>
    rw [Memory.writeFrom, ih, Memory.read_write]
    rcases Nat.lt_trichotomy b a with h | h | h
    · simp [show ¬ a + 1 ≤ b by omega, show ¬ a ≤ b by omega, show b ≠ a by omega]
    · subst h; simp
    · obtain ⟨k, rfl⟩ : ∃ k, b = a + 1 + k := ⟨b - (a + 1), by omega⟩
      simp [show a ≤ a + 1 + k by omega, show a + 1 + k - a = k + 1 by omega, show a + 1 + k ≠ a by omega]

end Sys2Proof.Machine
end

