-- ==== Sys2Proof/Laws/Ops.lean ====
section
/-! SUPPORT. One lemma per shared operation: everything it can do, and when. -/

namespace Sys2Proof.Machine

theorem trunc8_toNat (v : Int) : ((trunc8 v).toNat : Int) = v % 256 := by
  simp only [trunc8, BitVec.toNat_ofInt]
  omega

/-- An exact result that is a byte is kept. -/
theorem trunc8_toNat_of_fits {v : Int} (h0 : 0 ≤ v) (h1 : v ≤ 255) : ((trunc8 v).toNat : Int) = v := by
  rw [trunc8_toNat]; omega

@[simp] theorem trunc8_ofByte (b : Byte) : trunc8 (b.toNat : Int) = b := by
  apply BitVec.eq_of_toNat_eq
  have := trunc8_toNat (b.toNat : Int)
  have := b.isLt
  omega

/-- An address that is a byte always reads (20_memory.md R41). -/
@[simp] theorem memRead_byte (b : Byte) (s : State) : memRead (b.toNat : Int) s = .ok (s.readMem b.toNat) := by
  have := b.isLt
  simp [memRead]; omega

/-- An address that is a byte can always be written (20_memory.md R41). -/
@[simp] theorem memWrite_byte (b v : Byte) (s : State) :
    memWrite (b.toNat : Int) v s = .ok (s.writeMem b.toNat v) := by
  have := b.isLt
  simp [memWrite]; omega

theorem regOperand_ok {b : Byte} (h : b.toNat < 8) (s : State) : regOperand b s = .ok ⟨b.toNat, h⟩ := by
  simp [regOperand, h]

/-- A legal register operand is the register it names (30_encoding.md R62). -/
theorem regOperand_names {b : Byte} {r : RegIdx} (h : Names b r) (s : State) : regOperand b s = .ok r := by
  have hb : b.toNat < 8 := h ▸ r.isLt
  rw [regOperand_ok hb]
  exact congrArg Except.ok (Fin.ext h)

/-- Two legal register operands (40_dispatch.md R84). -/
theorem regOperands_names {a b : Byte} {ra rb : RegIdx} (ha : Names a ra) (hb : Names b rb) (s : State) :
    regOperands a b s = .ok (ra, rb) := by
  simp [regOperands, regOperand_names ha, regOperand_names hb, bind, Except.bind, pure, Except.pure]

theorem regOperand_bad {b : Byte} (h : ¬ b.toNat < 8) (s : State) :
    regOperand b s = .error (s.fail (.outOfRange (.regIndex b.toNat))) := by
  simp [regOperand, h, raise]

/-- The operand byte of a register index is that index. -/
@[simp] theorem regOperand_ofIdx (r : RegIdx) (s : State) : regOperand (BitVec.ofNat 8 r.val) s = .ok r := by
  have h : (BitVec.ofNat 8 r.val).toNat = r.val := by
    have := r.isLt
    simp only [BitVec.toNat_ofNat]; omega
  rw [regOperand_ok (by omega)]
  congr 1
  exact Fin.ext h

theorem regOperand_cases (b : Byte) (s : State) :
    (∃ r : RegIdx, b.toNat = r.val ∧ regOperand b s = .ok r) ∨
      (8 ≤ b.toNat ∧ regOperand b s = .error (s.fail (.outOfRange (.regIndex b.toNat)))) := by
  by_cases h : b.toNat < 8
  · exact .inl ⟨⟨_, h⟩, rfl, regOperand_ok h s⟩
  · exact .inr ⟨by omega, regOperand_bad h s⟩

theorem advance_ok {n : Nat} {s : State} (h : s.pc.toNat + 1 + n ≤ 255) :
    advance n s = .ok (s.setPc (trunc8 ((s.pc.toNat : Int) + 1 + n))) := by
  simp [advance]; omega

theorem advance_past {n : Nat} {s : State} (h : 255 < s.pc.toNat + 1 + n) :
    advance n s = .error (s.fail (.outOfRange (.pc ((s.pc.toNat : Int) + 1 + n)))) := by
  simp [advance, raise]; omega

/-- The default advance either sets pc or raises OutOfRange with the state unchanged (40_dispatch.md R86). -/
theorem advance_cases (n : Nat) (s : State) :
    (∃ p : Byte, p.toNat = s.pc.toNat + 1 + n ∧ advance n s = .ok (s.setPc p)) ∨
      (255 < s.pc.toNat + 1 + n ∧
        advance n s = .error (s.fail (.outOfRange (.pc ((s.pc.toNat : Int) + 1 + n))))) := by
  by_cases h : s.pc.toNat + 1 + n ≤ 255
  · refine .inl ⟨_, ?_, advance_ok h⟩
    have := trunc8_toNat_of_fits (v := (s.pc.toNat : Int) + 1 + n) (by omega) (by omega)
    omega
  · exact .inr ⟨by omega, advance_past (by omega)⟩

/-- SP goes down by one or the push faults with nothing written (43_stack.md R160). -/
theorem decSp_cases (s : State) :
    (∃ t : Byte, t.toNat + 1 = (s.reg SP).toNat ∧ decSp s = .ok (s.setReg SP t)) ∨
      ((s.reg SP).toNat = 0 ∧ decSp s = .error (s.fail (.outOfRange (.sp (-1))))) := by
  unfold decSp
  by_cases h : (s.reg SP).toNat = 0
  · exact .inr ⟨h, by simp [h, raise]⟩
  · have hb := (s.reg SP).isLt
    have := trunc8_toNat_of_fits (v := ((s.reg SP).toNat : Int) - 1) (by omega) (by omega)
    refine .inl ⟨_, ?_, if_neg (by omega)⟩
    omega

/-- SP goes up by one or the pop faults with SP unchanged (43_stack.md R161). -/
theorem incSp_cases (s : State) :
    (∃ t : Byte, t.toNat = (s.reg SP).toNat + 1 ∧ incSp s = .ok (s.setReg SP t)) ∨
      ((s.reg SP).toNat = 255 ∧ incSp s = .error (s.fail (.outOfRange (.sp 256)))) := by
  unfold incSp
  by_cases h : (s.reg SP).toNat = 255
  · exact .inr ⟨h, by simp [h, raise]⟩
  · have hb := (s.reg SP).isLt
    have := trunc8_toNat_of_fits (v := ((s.reg SP).toNat : Int) + 1) (by omega) (by omega)
    refine .inl ⟨_, ?_, if_neg (by omega)⟩
    omega

/-- A push writes the byte just below SP and moves SP there, or faults with nothing written (43_stack.md R160). -/
theorem push_cases (v : Byte) (s : State) :
    (∃ t : Byte, t.toNat + 1 = (s.reg SP).toNat ∧ push v s = .ok ((s.setReg SP t).writeMem t.toNat v)) ∨
      ((s.reg SP).toNat = 0 ∧ push v s = .error (s.fail (.outOfRange (.sp (-1))))) := by
  rcases decSp_cases s with ⟨t, ht, h⟩ | ⟨h0, h⟩
  · exact .inl ⟨t, ht, by simp [push, h, bind, Except.bind]⟩
  · exact .inr ⟨h0, by simp [push, h, bind, Except.bind]⟩

/-- A pop reads the byte at SP and moves SP up, or faults with nothing written (43_stack.md R161). -/
theorem pop_cases (s : State) :
    (∃ t : Byte, t.toNat = (s.reg SP).toNat + 1 ∧
        pop s = .ok (s.readMem (s.reg SP).toNat, s.setReg SP t)) ∨
      ((s.reg SP).toNat = 255 ∧ pop s = .error (s.fail (.outOfRange (.sp 256)))) := by
  rcases incSp_cases s with ⟨t, ht, h⟩ | ⟨h0, h⟩
  · exact .inl ⟨t, ht, by simp [pop, h, bind, Except.bind, pure, Except.pure]⟩
  · exact .inr ⟨h0, by simp [pop, h, bind, Except.bind]⟩

/-- A push with room, when SP is known as a number (43_stack.md R160). -/
theorem push_at {s : State} {n : Nat} (v : Byte) (h : (s.reg SP).toNat = n + 1) :
    push v s = .ok ((s.setReg SP (BitVec.ofNat 8 n)).writeMem n v) := by
  rcases push_cases v s with ⟨t, ht, hp⟩ | ⟨h0, -⟩
  · have hn : t.toNat = n := by omega
    have ht : t = BitVec.ofNat 8 n := by rw [← hn, BitVec.ofNat_toNat, BitVec.setWidth_eq]
    rw [hp, hn, ht]
  · omega

/-- A pop below the top, when SP is known as a number (43_stack.md R161). -/
theorem pop_at {s : State} {n : Nat} (h : (s.reg SP).toNat = n) (hn : n ≤ 254) :
    pop s = .ok (s.readMem n, s.setReg SP (BitVec.ofNat 8 (n + 1))) := by
  rcases pop_cases s with ⟨t, ht, hp⟩ | ⟨h0, -⟩
  · have hn : t.toNat = n + 1 := by omega
    have ht : t = BitVec.ofNat 8 (n + 1) := by rw [← hn, BitVec.ofNat_toNat, BitVec.setWidth_eq]
    rw [hp, h, ht]
  · omega

theorem popReg_cases (r : RegIdx) (s : State) :
    (∃ t : Byte, t.toNat = (s.reg SP).toNat + 1 ∧
        popReg r s = .ok ((s.setReg SP t).setReg r (s.readMem (s.reg SP).toNat))) ∨
      ((s.reg SP).toNat = 255 ∧ popReg r s = .error (s.fail (.outOfRange (.sp 256)))) := by
  rcases pop_cases s with ⟨t, ht, h⟩ | ⟨h0, h⟩
  · exact .inl ⟨t, ht, by simp [popReg, h, bind, Except.bind, pure, Except.pure]⟩
  · exact .inr ⟨h0, by simp [popReg, h, bind, Except.bind]⟩

@[simp] theorem complete_ok (s : State) : complete (.ok s) = .next s := rfl
@[simp] theorem complete_error (s : State) : complete (.error s) = .next s := rfl

/-- Every cycle that ran an instruction has a next state (40_dispatch.md R88). -/
theorem complete_next (x : Except State State) : ∃ t, complete x = .next t := by
  cases x <;> exact ⟨_, rfl⟩

/-- The default advance changes pc, or status, and nothing else (40_dispatch.md R86). -/
theorem advance_frame {n : Nat} {s t : State} (h : advance n s = .ok t ∨ advance n s = .error t) :
    t.regs = s.regs ∧ t.fl = s.fl ∧ t.mem = s.mem ∧ t.out = s.out ∧ t.latch = s.latch ∧ t.config = s.config := by
  rcases advance_cases n s with ⟨p, -, hp⟩ | ⟨-, hp⟩ <;> rw [hp] at h <;> simp at h <;> subst h <;> simp

/-- A binary ALU operation on legal operands: the destination, then the default advance (41_alu.md R100). -/
theorem aluBinary_names (f : Byte → Byte → Byte) {a b : Byte} {ra rb : RegIdx} (ha : Names a ra) (hb : Names b rb)
    (s : State) : aluBinary f a b s = advance 2 (s.setReg ra (f (s.reg ra) (s.reg rb))) := by
  simp [aluBinary, regOperands_names ha hb, bind, Except.bind]

/-- A unary ALU operation on a legal operand: in place, then the default advance (41_alu.md R100). -/
theorem aluUnary_names (f : Byte → Byte) {r : Byte} {rr : RegIdx} (h : Names r rr) (s : State) :
    aluUnary f r s = advance 1 (s.setReg rr (f (s.reg rr))) := by
  simp [aluUnary, regOperand_names h, bind, Except.bind]

/-- An instruction that writes one register and advances has the frame of that register. -/
theorem advance_setReg {n : Nat} {s : State} (r : RegIdx) (v : Byte) (h : s.pc.toNat + 1 + n ≤ 255) :
    ∃ t, advance n (s.setReg r v) = .ok t ∧ t.reg r = v ∧ Frame [r] [] s t ∧ Advanced (1 + n) s t := by
  rcases advance_cases n (s.setReg r v) with ⟨p, hp, ha⟩ | ⟨hp, -⟩
  · refine ⟨_, ha, by simp, ⟨fun q hq => ?_, fun _ _ => rfl, rfl, rfl, rfl, rfl, rfl, rfl, rfl, rfl⟩, ?_⟩
    · simp [State.reg_setReg_other s v (show q ≠ r by simpa using hq)]
    · simp only [State.setReg_pc] at hp
      simp only [Advanced, State.setPc_pc]
      omega
  · simp only [State.setReg_pc] at hp
    omega

end Sys2Proof.Machine
end

