-- ==== Sys2Proof/Laws/Exec.lean ====
section
/-! SUPPORT. What an instruction, a delivery and a cycle can do, said once: a property that the named updates keep is kept by
all of them. -/

namespace Sys2Proof.Machine

/-- Both ends of an operation have the property: the state it leaves and the Failed state of its raise. -/
def Ends (P : State → Prop) : Except State State → Prop
  | .ok t => P t
  | .error t => P t

theorem Ends.of_ok {P : State → Prop} {s : State} (h : P s) : Ends P (.ok s) := h
theorem Ends.of_error {P : State → Prop} {s : State} (h : P s) : Ends P (.error s) := h

/-- The property passes through a sequence of statements. -/
theorem Ends.bind {P : State → Prop} {x : Except State State} {f : State → Except State State} (hx : Ends P x)
    (hf : ∀ u, P u → Ends P (f u)) : Ends P (x >>= f) := by
  cases x with
  | ok u => exact hf u hx
  | error u => exact hx

/-- A completed operation leaves a state with the property. -/
theorem Ends.complete {P : State → Prop} {x : Except State State} {t : State} (hx : Ends P x)
    (h : Machine.complete x = .next t) : P t := by
  cases x <;> simp only [complete_ok, complete_error, Host.Outcome.next.injEq] at h <;> exact h ▸ hx

/-- The updates every instruction may make: a register, pc, a fatal error. -/
structure KeptByBasics (P : State → Prop) : Prop where
  reg : ∀ s r v, P s → P (s.setReg r v)
  pc : ∀ s v, P s → P (s.setPc v)
  fail : ∀ s e, P s → P (s.fail e)

/-- A write of one cell. -/
abbrev KeptByWrite (P : State → Prop) : Prop := ∀ s (a v : Byte), P s → P (s.writeMem a.toNat v)

variable {P : State → Prop}

theorem KeptByBasics.regOperand (k : KeptByBasics P) {b : Byte} {s : State} {f : RegIdx → Except State State} (h : P s)
    (hf : ∀ r, Ends P (f r)) : Ends P (Machine.regOperand b s >>= f) := by
  rcases regOperand_cases b s with ⟨r, -, hr⟩ | ⟨-, hr⟩
  · rw [hr]; exact hf r
  · rw [hr]; exact k.fail s _ h

theorem KeptByBasics.regOperands (k : KeptByBasics P) {a b : Byte} {s : State} {f : RegIdx × RegIdx → Except State State}
    (h : P s) (hf : ∀ ra rb, Ends P (f (ra, rb))) : Ends P (Machine.regOperands a b s >>= f) := by
  rcases regOperand_cases a s with ⟨ra, -, ha⟩ | ⟨-, ha⟩
  · rcases regOperand_cases b s with ⟨rb, -, hb⟩ | ⟨-, hb⟩
    · simpa [Machine.regOperands, ha, hb, Bind.bind, Except.bind, pure, Except.pure] using hf ra rb
    · simp only [Machine.regOperands, ha, hb, Bind.bind, Except.bind]
      exact k.fail s _ h
  · simp only [Machine.regOperands, ha, Bind.bind, Except.bind]
    exact k.fail s _ h

theorem KeptByBasics.advance (k : KeptByBasics P) {n : Nat} {s : State} (h : P s) : Ends P (Machine.advance n s) := by
  rcases advance_cases n s with ⟨p, -, hp⟩ | ⟨-, hp⟩ <;> rw [hp]
  · exact k.pc s p h
  · exact k.fail s _ h

theorem KeptByBasics.decSp (k : KeptByBasics P) {s : State} (h : P s) : Ends P (Machine.decSp s) := by
  rcases decSp_cases s with ⟨t, -, ht⟩ | ⟨-, ht⟩ <;> rw [ht]
  · exact k.reg s _ t h
  · exact k.fail s _ h

theorem KeptByBasics.incSp (k : KeptByBasics P) {s : State} (h : P s) : Ends P (Machine.incSp s) := by
  rcases incSp_cases s with ⟨t, -, ht⟩ | ⟨-, ht⟩ <;> rw [ht]
  · exact k.reg s _ t h
  · exact k.fail s _ h

theorem KeptByBasics.push (k : KeptByBasics P) (w : KeptByWrite P) {v : Byte} {s : State} (h : P s) :
    Ends P (Machine.push v s) := by
  rcases push_cases v s with ⟨t, -, ht⟩ | ⟨-, ht⟩ <;> rw [ht]
  · exact w _ t v (k.reg s _ t h)
  · exact k.fail s _ h

theorem KeptByBasics.popReg (k : KeptByBasics P) {r : RegIdx} {s : State} (h : P s) : Ends P (Machine.popReg r s) := by
  rcases popReg_cases r s with ⟨t, -, ht⟩ | ⟨-, ht⟩ <;> rw [ht]
  · exact k.reg _ r _ (k.reg s _ t h)
  · exact k.fail s _ h

theorem KeptByBasics.pop (k : KeptByBasics P) {s : State} {f : Byte × State → Except State State} (h : P s)
    (hf : ∀ v u, P u → Ends P (f (v, u))) : Ends P (Machine.pop s >>= f) := by
  rcases pop_cases s with ⟨t, -, ht⟩ | ⟨-, ht⟩ <;> rw [ht]
  · exact hf _ _ (k.reg s _ t h)
  · exact k.fail s _ h

theorem KeptByBasics.aluBinary (k : KeptByBasics P) {f : Byte → Byte → Byte} {a b : Byte} {s : State} (h : P s) :
    Ends P (Machine.aluBinary f a b s) :=
  k.regOperands h fun ra _ => k.advance (k.reg s ra _ h)

theorem KeptByBasics.aluUnary (k : KeptByBasics P) {f : Byte → Byte} {r : Byte} {s : State} (h : P s) :
    Ends P (Machine.aluUnary f r s) :=
  k.regOperand h fun r => k.advance (k.reg s r _ h)

/-- What an instruction can do: a property kept by the updates it may make is kept by it, whether it completes or fails. Only
CMP and IRET write FL, only ST, PUSH and CALL write memory, only PRN and PRA emit, only HLT halts, only IRET
touches the latch. -/
theorem exec_keeps (k : KeptByBasics P) (i : Instr)
    (hfl : (∃ a b, i = .cmp a b) ∨ i = .iret → ∀ s v, P s → P (s.setFl v))
    (hmem : (∃ a b, i = .st a b) ∨ (∃ r, i = .push r ∨ i = .call r) → KeptByWrite P)
    (hout : (∃ r, i = .prn r ∨ i = .pra r) → ∀ s o v, P s → P (emit o v s))
    (hhalt : i = .hlt → ∀ s, P s → P (s.setStatus .halted))
    (hlatch : i = .iret → ∀ s v, P s → P (setLatch v s))
    {s t : State} (hs : P s) (h : exec i s = .next t) : P t := by
  cases i with
  | ldi r v => exact Ends.complete (k.regOperand hs fun r => k.advance (k.reg s r _ hs)) h
  | ld a b =>
    refine Ends.complete (k.regOperands hs fun ra rb => ?_) h
    simp only [memRead_byte]
    exact k.advance (k.reg s ra _ hs)
  | st a b =>
    refine Ends.complete (k.regOperands hs fun ra rb => ?_) h
    simp only [memWrite_byte]
    exact k.advance (hmem (.inl ⟨a, b, rfl⟩) s _ _ hs)
  | prn r => exact Ends.complete (k.regOperand hs fun rr => k.advance (hout ⟨r, .inl rfl⟩ s _ _ hs)) h
  | pra r => exact Ends.complete (k.regOperand hs fun rr => k.advance (hout ⟨r, .inr rfl⟩ s _ _ hs)) h
  | push r =>
    refine Ends.complete (k.regOperand hs fun rr => (k.decSp hs).bind fun u hu => ?_) h
    simp only [memWrite_byte]
    exact k.advance (hmem (.inr ⟨r, .inl rfl⟩) u _ _ hu)
  | pop r =>
    refine Ends.complete (k.regOperand hs fun rr => ?_) h
    simp only [memRead_byte]
    exact (k.incSp (k.reg s rr _ hs)).bind fun u hu => k.advance hu
  | call r =>
    refine Ends.complete (k.regOperand hs fun rr => ?_) h
    dsimp only
    split
    · exact k.fail s _ hs
    · exact (k.push (hmem (.inr ⟨r, .inr rfl⟩)) hs).bind fun u hu => k.pc u _ hu
  | ret => exact Ends.complete (k.pop hs fun v u hu => Ends.of_ok (k.pc u v hu)) h
  | jmp r => exact Ends.complete (k.regOperand hs fun rr => Ends.of_ok (k.pc s _ hs)) h
  | jeq r =>
    refine Ends.complete (k.regOperand hs fun rr => ?_) h
    split
    · exact k.pc s _ hs
    · exact k.advance hs
  | jne r =>
    refine Ends.complete (k.regOperand hs fun rr => ?_) h
    split
    · exact k.advance hs
    · exact k.pc s _ hs
  | mod a b =>
    refine Ends.complete (k.regOperands hs fun ra rb => ?_) h
    dsimp only
    split
    · exact k.fail s _ hs
    · exact k.aluBinary hs
  | cmp a b =>
    exact Ends.complete (k.regOperands hs fun ra rb => k.advance (hfl (.inl ⟨a, b, rfl⟩) s _ hs)) h
  | addi r v => exact Ends.complete (k.regOperand hs fun rr => k.advance (k.reg s rr _ hs)) h
  | iret =>
    refine Ends.complete ((k.popReg hs).bind fun u hu => (k.popReg hu).bind fun u hu => (k.popReg hu).bind fun u hu =>
      (k.popReg hu).bind fun u hu => (k.popReg hu).bind fun u hu => (k.popReg hu).bind fun u hu =>
      k.pop hu fun v u hu => ?_) h
    exact k.pop (hfl (.inr rfl) u v hu) fun v u hu => hlatch rfl _ _ (k.pc u v hu)
  | hlt => exact Ends.complete (Ends.of_ok (hhalt rfl s hs)) h
  | add a b => exact Ends.complete (k.aluBinary hs) h
  | sub a b => exact Ends.complete (k.aluBinary hs) h
  | mul a b => exact Ends.complete (k.aluBinary hs) h
  | bitNot r => exact Ends.complete (k.aluUnary hs) h
  | inc r => exact Ends.complete (k.aluUnary hs) h
  | dec r => exact Ends.complete (k.aluUnary hs) h
  | bitAnd a b => exact Ends.complete (k.aluBinary hs) h
  | bitOr a b => exact Ends.complete (k.aluBinary hs) h
  | bitXor a b => exact Ends.complete (k.aluBinary hs) h
  | shl a b => exact Ends.complete (k.aluBinary hs) h
  | shr a b => exact Ends.complete (k.aluBinary hs) h

/-- A vector slot's address is a byte, so the vector fetch cannot fault (20_memory.md R47). -/
theorem vectorAddress_byte (c : Config) (i : RegIdx) : ∃ b : Byte, vectorAddress c i = b.toNat := by
  unfold vectorAddress
  split
  · exact ⟨0xF8, rfl⟩
  · exact ⟨0xF9, rfl⟩
  all_goals exact ⟨_, rfl⟩

/-- What a delivery can do (60_exceptions.md R208): write registers IS and SP, the stack, pc and the latch, or fail. -/
theorem deliver_keeps (k : KeptByBasics P) (w : KeptByWrite P) (hlatch : ∀ s v, P s → P (setLatch v s)) {i : RegIdx}
    {s : State} (hs : P s) : Ends P (deliver i s) := by
  refine (k.push w (k.reg s _ _ hs)).bind fun u hu => (k.push w hu).bind fun u hu => (k.push w hu).bind fun u hu =>
    (k.push w hu).bind fun u hu => (k.push w hu).bind fun u hu => (k.push w hu).bind fun u hu =>
    (k.push w hu).bind fun u hu => (k.push w hu).bind fun u hu => ?_
  obtain ⟨b, hb⟩ := vectorAddress_byte u.config i
  simp only [hb, memRead_byte]
  exact hlatch _ _ (k.pc u _ hu)

/-- What the interrupt check can do: nothing, or one delivery (60_exceptions.md R207). -/
theorem interruptCheck_keeps (k : KeptByBasics P) (w : KeptByWrite P) (hlatch : ∀ s v, P s → P (setLatch v s)) {s : State}
    (hs : P s) : Ends P (interruptCheck s) := by
  unfold interruptCheck
  split
  · exact hs
  · exact deliver_keeps k w hlatch hs

/-- What a poll can do: write IS and the key cell (60_exceptions.md R204). -/
theorem poll_keeps (hreg : ∀ s r v, P s → P (s.setReg r v)) (hkey : ∀ s v, P s → P (s.writeMem keyCell v)) (d : Draw)
    {s : State} (hs : P s) : P (poll d s) := by
  have ht : P (pollTimer d.tick s) := by
    unfold pollTimer
    split
    · exact hreg s _ _ hs
    · exact hs
  unfold poll pollKeyboard
  split
  · exact ht
  · exact hreg _ _ _ (hkey _ _ ht)

/-- What a cycle can do: a property kept by every update is kept by it. -/
theorem cycle_keeps (k : KeptByBasics P) (w : KeptByWrite P) (hfl : ∀ s v, P s → P (s.setFl v))
    (hout : ∀ s o v, P s → P (emit o v s)) (hhalt : ∀ s, P s → P (s.setStatus .halted))
    (hlatch : ∀ s v, P s → P (setLatch v s)) {d : Draw} {s t : State} (hs : P s) (h : cycle d s = .next t) : P t := by
  have hp := interruptCheck_keeps k w hlatch (poll_keeps k.reg (fun s v => w s 0xF4 v) d hs)
  unfold cycle at h
  split at h
  · rename_i u hu
    rw [hu] at hp
    simp only [Host.Outcome.next.injEq] at h
    exact h ▸ hp
  · rename_i u hu
    rw [hu] at hp
    unfold executeOne at h
    split at h
    · simp only [Host.Outcome.next.injEq] at h
      exact h ▸ k.fail u _ hp
    · exact exec_keeps k _ (fun _ => hfl) (fun _ => w) (fun _ => hout) (fun _ => hhalt) (fun _ => hlatch) hp h

/-- Every instruction answers a next state: a fatal error is a status (40_dispatch.md R88). -/
theorem exec_next (i : Instr) (s : State) : ∃ t, exec i s = .next t := by
  cases i with
  | hlt => exact ⟨_, rfl⟩
  | _ => exact complete_next _

/-- Every cycle answers a next state. -/
theorem cycle_next (d : Draw) (s : State) : ∃ t, cycle d s = .next t := by
  unfold cycle
  split
  · exact ⟨_, rfl⟩
  · unfold executeOne
    split
    · exact ⟨_, rfl⟩
    · exact exec_next _ _

end Sys2Proof.Machine
end

