-- ==== Sys2Proof/Laws/PerInstr.lean ====
section
/-! SUPPORT. Per instruction: its operand bytes have the length of its format and read back as it (30_encoding.md R60,
R61). -/

namespace Sys2Proof.Laws.Shape

/-- The operand bytes of `i`, followed by anything, are read back as `i`, and there are as many of them as the
format of its handler has. -/
def Statement (i : Instr) : Prop :=
  i.operandBytes.length = i.op.operandCount ∧
    ∀ rest, decodeOperands i.op (i.operandBytes ++ rest) = .ok (i, rest)

theorem ldi (r imm8 : Byte) : Statement (.ldi r imm8) := ⟨rfl, fun _ => rfl⟩
theorem ld (a b : Byte) : Statement (.ld a b) := ⟨rfl, fun _ => rfl⟩
theorem st (a b : Byte) : Statement (.st a b) := ⟨rfl, fun _ => rfl⟩
theorem prn (r : Byte) : Statement (.prn r) := ⟨rfl, fun _ => rfl⟩
theorem pra (r : Byte) : Statement (.pra r) := ⟨rfl, fun _ => rfl⟩
theorem push (r : Byte) : Statement (.push r) := ⟨rfl, fun _ => rfl⟩
theorem pop (r : Byte) : Statement (.pop r) := ⟨rfl, fun _ => rfl⟩
theorem call (r : Byte) : Statement (.call r) := ⟨rfl, fun _ => rfl⟩
theorem ret : Statement .ret := ⟨rfl, fun _ => rfl⟩
theorem jmp (r : Byte) : Statement (.jmp r) := ⟨rfl, fun _ => rfl⟩
theorem jeq (r : Byte) : Statement (.jeq r) := ⟨rfl, fun _ => rfl⟩
theorem jne (r : Byte) : Statement (.jne r) := ⟨rfl, fun _ => rfl⟩
theorem add (a b : Byte) : Statement (.add a b) := ⟨rfl, fun _ => rfl⟩
theorem sub (a b : Byte) : Statement (.sub a b) := ⟨rfl, fun _ => rfl⟩
theorem mul (a b : Byte) : Statement (.mul a b) := ⟨rfl, fun _ => rfl⟩
theorem mod (a b : Byte) : Statement (.mod a b) := ⟨rfl, fun _ => rfl⟩
theorem cmp (a b : Byte) : Statement (.cmp a b) := ⟨rfl, fun _ => rfl⟩
theorem bitNot (r : Byte) : Statement (.bitNot r) := ⟨rfl, fun _ => rfl⟩
theorem inc (r : Byte) : Statement (.inc r) := ⟨rfl, fun _ => rfl⟩
theorem dec (r : Byte) : Statement (.dec r) := ⟨rfl, fun _ => rfl⟩
theorem addi (r imm8 : Byte) : Statement (.addi r imm8) := ⟨rfl, fun _ => rfl⟩
theorem iret : Statement .iret := ⟨rfl, fun _ => rfl⟩
theorem hlt : Statement .hlt := ⟨rfl, fun _ => rfl⟩
theorem bitAnd (a b : Byte) : Statement (.bitAnd a b) := ⟨rfl, fun _ => rfl⟩
theorem bitOr (a b : Byte) : Statement (.bitOr a b) := ⟨rfl, fun _ => rfl⟩
theorem bitXor (a b : Byte) : Statement (.bitXor a b) := ⟨rfl, fun _ => rfl⟩
theorem shl (a b : Byte) : Statement (.shl a b) := ⟨rfl, fun _ => rfl⟩
theorem shr (a b : Byte) : Statement (.shr a b) := ⟨rfl, fun _ => rfl⟩

end Sys2Proof.Laws.Shape
end

