-- ==== Sys2Proof/Machine/Text.lean ====
section
/-! DEFINITION. The host-side texts the spec describes: a console record's line (42_data_io.md R145), an instruction's
assembly line (30_encoding.md R69) and a program image (30_encoding.md R70). Texts are lists of characters. -/

namespace Sys2Proof.Machine

/-- The decimal digits of a byte, no sign, no leading zeros. -/
def decimal (v : Byte) : List Char := Nat.toDigits 10 v.toNat

/-- The line the host renders for a record: the decimal value or the character with that code point, and a newline
(42_data_io.md R145). How code points 128..255 become bytes is the host's (log 24). -/
def OutRecord.line (r : OutRecord) : List Char :=
  match r.kind with
  | .prn => decimal r.value ++ ['\n']
  | .pra => [Char.ofNat r.value.toNat, '\n']

/-- The console text of a run (42_data_io.md R145). -/
def consoleText (out : List OutRecord) : List Char := out.flatMap OutRecord.line

/-- The mnemonic of a handler (30_encoding.md R64). -/
def mnemonic : Op → List Char
  | .ldi => ['L', 'D', 'I']
  | .ld => ['L', 'D']
  | .st => ['S', 'T']
  | .prn => ['P', 'R', 'N']
  | .pra => ['P', 'R', 'A']
  | .push => ['P', 'U', 'S', 'H']
  | .pop => ['P', 'O', 'P']
  | .call => ['C', 'A', 'L', 'L']
  | .ret => ['R', 'E', 'T']
  | .jmp => ['J', 'M', 'P']
  | .jeq => ['J', 'E', 'Q']
  | .jne => ['J', 'N', 'E']
  | .add => ['A', 'D', 'D']
  | .sub => ['S', 'U', 'B']
  | .mul => ['M', 'U', 'L']
  | .mod => ['M', 'O', 'D']
  | .cmp => ['C', 'M', 'P']
  | .bitNot => ['N', 'O', 'T']
  | .inc => ['I', 'N', 'C']
  | .dec => ['D', 'E', 'C']
  | .addi => ['A', 'D', 'D', 'I']
  | .iret => ['I', 'R', 'E', 'T']
  | .hlt => ['H', 'L', 'T']
  | .bitAnd => ['A', 'N', 'D']
  | .bitOr => ['O', 'R']
  | .bitXor => ['X', 'O', 'R']
  | .shl => ['S', 'H', 'L']
  | .shr => ['S', 'H', 'R']

/-- The operands of an instruction as text: registers `R<index>`, immediates in decimal, a comma between two
(30_encoding.md R69). DESIGN CHOICE (log 31): a register byte of 8..255, for which R69 and D31 give no text, is written
`R8`..`R255` in the same way. -/
def operandText (f : Format) (bytes : List Byte) : List Char :=
  match f, bytes with
  | .f1r, x :: _ => ' ' :: 'R' :: decimal x
  | .f2rr, x :: y :: _ => ' ' :: 'R' :: decimal x ++ ',' :: 'R' :: decimal y
  | .f2ri, x :: y :: _ => ' ' :: 'R' :: decimal x ++ ',' :: decimal y
  | _, _ => []

/-- The assembly line of an instruction (30_encoding.md R69). -/
def assemblyLine (i : Instr) : List Char := mnemonic i.op ++ operandText i.op.format i.operandBytes

/-- What one line of a program image is (30_encoding.md R70). -/
inductive ImageLine where
  /-- A blank or comment-only line, which takes no address. -/
  | skipped
  /-- One instruction byte. -/
  | byte (b : Byte)
  /-- Not an 8-character binary literal: the host's error (92_eei_decisions.md D22). -/
  | malformed
  deriving DecidableEq, Repr

/-- The white space stripped around a literal (log 31). -/
def isBlank (c : Char) : Bool := c == ' ' || c == '\t' || c == '\r' || c == '\n'

/-- The text of a line before its comment, surrounding white space stripped (30_encoding.md R70). -/
def stripLine (line : List Char) : List Char :=
  (((line.takeWhile (· != '#')).dropWhile isBlank).reverse.dropWhile isBlank).reverse

/-- One line of a program image; a literal is read most significant bit first (30_encoding.md R70). -/
def parseLine (line : List Char) : ImageLine :=
  match stripLine line with
  | [] => .skipped
  | digits =>
    if digits.length = 8 && digits.all (fun c => c == '0' || c == '1') then
      .byte (BitVec.ofNat 8 (digits.foldl (fun n c => 2 * n + (if c == '1' then 1 else 0)) 0))
    else .malformed

/-- The bytes of a program image, or none where a line is malformed (30_encoding.md R70). -/
def parseImage : List (List Char) → Option (List Byte)
  | [] => some []
  | line :: rest =>
    match parseLine line with
    | .skipped => parseImage rest
    | .byte b => (parseImage rest).map (b :: ·)
    | .malformed => none

end Sys2Proof.Machine
end

