-- ==== Sys2Proof/Tests/Slice0.lean ====
section
/-! SUPPORT. Tests: the checks of WellFormed, words written out from the encoding table, the vectors of
95_test_vectors.md, and for every obligation with hypotheses a state and operands that meet them. -/

namespace Sys2Proof.Tests

open Sys2Proof.Machine

/-! ## Helpers -/

/-- The state an outcome holds. -/
def after : Host.Outcome State Fault Refusal → Option State
  | .next t => some t
  | _ => none

/-- A Running block with these bytes at pc, three quiet polls scheduled, and every other field at its reset value. -/
def board (pc : Byte) (bytes : List Byte) (regs : Vector Byte 8 := State.reset.regs) (cells : List Host.Cell := [])
    (fl : Byte := 0) : State :=
  { State.reset with
    pc := pc
    regs := regs
    fl := fl
    mem := Memory.writeFrom (cells.foldl (fun m c => Memory.write m c.1 c.2) []) pc.toNat bytes
    status := .running
    draws := [.quiet, .quiet, .quiet] }

/-- Registers R0 and R1, the others at reset. -/
def regs01 (x0 x1 : Byte) : Vector Byte 8 := #v[x0, x1, 0, 0, 0, 0, 0, 0xF4]

/-- The registers at reset but for SP. -/
def regsSp (sp : Byte) : Vector Byte 8 := #v[0, 0, 0, 0, 0, 0, 0, sp]

/-- The registers at reset but for IM, IS and SP. -/
def regsIrq (im is sp : Byte) : Vector Byte 8 := #v[0, 0, 0, 0, 0, im, is, sp]

/-- What one step from `s` leaves in R0 and pc. -/
def r0Pc (s : State) : Option (Byte × Byte) := (after (step s)).map fun t => (t.reg 0, t.pc)

/-- What one step from `s` leaves in status and pc. -/
def statusPc (s : State) : Option (Status × Byte) := (after (step s)).map fun t => (t.status, t.pc)

/-- What one step from `s` leaves in SP, pc and one byte of memory. -/
def spPcMem (a : Nat) (s : State) : Option (Byte × Byte × Byte) :=
  (after (step s)).map fun t => (t.reg SP, t.pc, t.readMem a)

/-! ## WellFormed refuses each ill-formed term -/

theorem test_wf_register_byte1 : (Instr.ldi 8 0).WellFormed specConfig = false := by decide
theorem test_wf_register_byte2 : (Instr.add 7 8).WellFormed specConfig = false := by decide
theorem test_wf_bitwise_not_dispatched :
    (Instr.bitXor 0 1).WellFormed { specConfig with aluBitwiseDispatched := false } = false := by decide
theorem test_wf_immediate_unchecked : (Instr.ldi 7 0xFF).WellFormed specConfig = true := by decide
theorem test_config_wf : specConfig.wf = true := by decide
theorem test_config_duplicate_byte :
    { specConfig with opcodeMap := (0x82, .hlt) :: opcodeTable.dropLast }.wf = false := by decide
theorem test_config_duplicate_handler :
    { specConfig with opcodeMap := (0x00, .hlt) :: opcodeTable }.wf = false := by decide
theorem test_config_addi_byte_taken : { specConfig with opcAddi := 0x01 }.wf = false := by decide
theorem test_config_addi_in_map :
    { specConfig with opcodeMap := (0x00, .addi) :: opcodeTable }.wf = false := by decide
theorem test_config_handler_missing : { specConfig with opcodeMap := opcodeTable.tail }.wf = false := by decide

/-! ## Words written out from 30_encoding.md R61 and R64, byte 2, byte 1, opcode -/

theorem test_words_data :
    decodeTableWord 24 0b00001000_00000000_10000010 = some (.ldi 0 8) ∧
    decodeTableWord 24 0b00000001_00000110_10000011 = some (.ld 6 1) ∧
    decodeTableWord 24 0b00000111_00000011_10000100 = some (.st 3 7) ∧
    decodeTableWord 16 0b00000101_01000111 = some (.prn 5) ∧
    decodeTableWord 16 0b00000010_01001000 = some (.pra 2) := by decide

theorem test_words_stack_control :
    decodeTableWord 16 0b00000001_01000101 = some (.push 1) ∧
    decodeTableWord 16 0b00000100_01000110 = some (.pop 4) ∧
    decodeTableWord 16 0b00000011_01010000 = some (.call 3) ∧
    decodeTableWord 8 0b00010001 = some .ret ∧
    decodeTableWord 16 0b00000111_01010100 = some (.jmp 7) ∧
    decodeTableWord 16 0b00000110_01010101 = some (.jeq 6) ∧
    decodeTableWord 16 0b00000101_01010110 = some (.jne 5) := by decide

theorem test_words_alu :
    decodeTableWord 24 0b00000001_00000010_10100000 = some (.add 2 1) ∧
    decodeTableWord 24 0b00000001_00000010_10100001 = some (.sub 2 1) ∧
    decodeTableWord 24 0b00000001_00000010_10100010 = some (.mul 2 1) ∧
    decodeTableWord 24 0b00000001_00000010_10100100 = some (.mod 2 1) ∧
    decodeTableWord 24 0b00000001_00000010_10100111 = some (.cmp 2 1) ∧
    decodeTableWord 16 0b00000011_01101001 = some (.bitNot 3) ∧
    decodeTableWord 16 0b00000011_01100101 = some (.inc 3) ∧
    decodeTableWord 16 0b00000011_01100110 = some (.dec 3) ∧
    decodeTableWord 24 0b11111111_00000000_10101111 = some (.addi 0 0xFF) := by decide

theorem test_words_bitwise_system :
    decodeTableWord 24 0b00000110_00000101_10101000 = some (.bitAnd 5 6) ∧
    decodeTableWord 24 0b00000110_00000101_10101010 = some (.bitOr 5 6) ∧
    decodeTableWord 24 0b00000110_00000101_10101011 = some (.bitXor 5 6) ∧
    decodeTableWord 24 0b00000110_00000101_10101100 = some (.shl 5 6) ∧
    decodeTableWord 24 0b00000110_00000101_10101101 = some (.shr 5 6) ∧
    decodeTableWord 8 0b00010011 = some .iret ∧
    decodeTableWord 8 0b00000001 = some .hlt := by decide

/-- The decoder rejects by name: 30_encoding.md R66, 40_dispatch.md R83. -/
theorem test_decode_rejects :
    decode specConfig [] = .error .noByte ∧ decode specConfig [0xA3, 0, 1] = .error (.unassigned 0xA3) ∧
    decode specConfig [0x47] = .error (.missingOperand 1) ∧
    decode specConfig [0x82] = .error (.missingOperand 1) ∧
    decode specConfig [0x82, 0] = .error (.missingOperand 2) := by decide

/-- Every row agrees with the layout AABCDDDD: AA operands, C set for the rows that set pc (30_encoding.md R65). -/
theorem test_rows_agree_with_the_layout :
    ((specConfig.opcAddi, Op.addi) :: opcodeTable).all fun row =>
      row.1.toNat / 64 == row.2.operandCount && (row.1.getLsbD 4 == (row.2.ownsPc && row.2 != .hlt)) := by decide

/-- One step after reset runs the word placed by the host's tool. -/
theorem test_placed_word_runs_first :
    r0Pc (State.reset.withFetchWord 24 0x080082) = some (8, 3) := by decide

/-! ## ALU: vectors V1 to V26 of 95_test_vectors.md -/

theorem test_v1_add : r0Pc (board 0 [0xA0, 0, 1] (regs01 0xFF 0x02)) = some (0x01, 3) := by decide
theorem test_v2_sub : r0Pc (board 0 [0xA1, 0, 1] (regs01 0x00 0x01)) = some (0xFF, 3) := by decide
theorem test_v3_mul : r0Pc (board 0 [0xA2, 0, 1] (regs01 0x10 0x11)) = some (0x10, 3) := by decide
theorem test_v4_mod : r0Pc (board 0 [0xA4, 0, 1] (regs01 0x11 0x05)) = some (0x02, 3) := by decide
theorem test_v5_mod_by_zero :
    statusPc (board 0 [0xA4, 0, 1] (regs01 0x11 0)) = some (.failed (.divisionByZero 1), 0) := by decide
theorem test_v7_and : r0Pc (board 0 [0xA8, 0, 1] (regs01 0xCC 0xAA)) = some (0x88, 3) := by decide
theorem test_v8_or : r0Pc (board 0 [0xAA, 0, 1] (regs01 0xCC 0xAA)) = some (0xEE, 3) := by decide
theorem test_v9_xor : r0Pc (board 0 [0xAB, 0, 1] (regs01 0xCC 0xAA)) = some (0x66, 3) := by decide
theorem test_v12_shl : r0Pc (board 0 [0xAC, 0, 1] (regs01 0x81 0x07)) = some (0x80, 3) := by decide
theorem test_v13_shl_by_eight : r0Pc (board 0 [0xAC, 0, 1] (regs01 0xFF 0x08)) = some (0, 3) := by decide
theorem test_v14_shr : r0Pc (board 0 [0xAD, 0, 1] (regs01 0x81 0x01)) = some (0x40, 3) := by decide
theorem test_v16_shr_by_200 : r0Pc (board 0 [0xAD, 0, 1] (regs01 0xFF 0xC8)) = some (0, 3) := by decide
theorem test_v17_cmp_is_unsigned :
    ((after (step (board 0 [0xA7, 0, 1] (regs01 0xFF 0x01)))).map State.fl) = some 0x02 := by decide
theorem test_v19_cmp_clears_high_bits :
    ((after (step (board 0 [0xA7, 0, 1] (regs01 0x07 0x07) [] 0xF8))).map State.fl) = some 0x01 := by decide
theorem test_v21_not : r0Pc (board 0 [0x69, 0] (regs01 0x5A 0)) = some (0xA5, 2) := by decide
theorem test_v22_inc : r0Pc (board 0 [0x65, 0] (regs01 0xFF 0)) = some (0x00, 2) := by decide
theorem test_v23_dec : r0Pc (board 0 [0x66, 0] (regs01 0x00 0)) = some (0xFF, 2) := by decide
theorem test_v25_addi : r0Pc (board 0 [0xAF, 0, 0x10] (regs01 0xF8 0)) = some (0x08, 3) := by decide
theorem test_v64_bitwise_not_dispatched :
    statusPc { board 0 [0xAB, 0, 1] with config := { specConfig with aluBitwiseDispatched := false } } =
      some (.failed (.unsupportedOperation 0xAB 0), 0) := by decide

/-! ## Data movement and console: V27 to V35, V59 to V61 -/

theorem test_v28_register_byte_eight :
    statusPc (board 0 [0x82, 8, 1]) = some (.failed (.outOfRange (.regIndex 8)), 0) := by decide
theorem test_v29_ld : r0Pc (board 0 [0x83, 0, 1] (regs01 0 0x40) [(0x40, 0x99)]) = some (0x99, 3) := by decide
theorem test_v30_st : spPcMem 0x40 (board 0 [0x84, 0, 1] (regs01 0x40 0x77)) = some (0xF4, 3, 0x77) := by decide
theorem test_v31_st_over_itself : spPcMem 0 (board 0 [0x84, 0, 1] (regs01 0 0x77)) = some (0xF4, 3, 0x77) := by
  decide
theorem test_v32_prn :
    ((after (step (board 0 [0x47, 0] (regs01 0xC8 0)))).map State.out) = some [⟨.prn, 200⟩] := by decide
theorem test_v33_pra :
    ((after (step (board 0 [0x48, 0] (regs01 0x41 0)))).map State.out) = some [⟨.pra, 65⟩] := by decide
theorem test_v59_advance_past_memory :
    r0Pc (board 0xFD [0x82, 0, 5]) = some (5, 0xFD) ∧
    statusPc (board 0xFD [0x82, 0, 5]) = some (.failed (.outOfRange (.pc 256)), 0xFD) := by decide
theorem test_v60_operand_past_memory :
    statusPc (board 0xFE [0x82, 0]) = some (.failed (.outOfRange (.addr 256)), 0xFE) := by decide
theorem test_v57_zero_is_unsupported :
    statusPc (board 0 [0]) = some (.failed (.unsupportedOperation 0 0), 0) := by decide

/-! ## Stack: V36 to V42 -/

theorem test_v36_push : spPcMem 0xF3 (board 0 [0x45, 1] (regs01 0 5)) = some (0xF3, 2, 5) := by decide
theorem test_v38_push_sp : spPcMem 0xF3 (board 0 [0x45, 7]) = some (0xF3, 2, 0xF3) := by decide
theorem test_v37_push_full :
    statusPc (board 0 [0x45, 1] (regsSp 0)) = some (.failed (.outOfRange (.sp (-1))), 0) := by decide
theorem test_v40_pop_sp : spPcMem 0xF3 (board 0 [0x46, 7] (regsSp 0xF3) [(0xF3, 0xF3)]) = some (0xF4, 2, 0xF3) := by
  decide
theorem test_v41_pop_past_memory :
    statusPc (board 0 [0x46, 0] (regsSp 0xFF) [(0xFF, 9)]) = some (.failed (.outOfRange (.sp 256)), 0) ∧
    r0Pc (board 0 [0x46, 0] (regsSp 0xFF) [(0xFF, 9)]) = some (9, 0) := by decide

/-! ## Control and system: V43 to V58, V62, V63 -/

theorem test_v43_call :
    spPcMem 0xF1 (board 0x0D [0x50, 3] #v[0, 0, 0, 0x12, 0, 0, 0, 0xF2]) = some (0xF1, 0x12, 0x0F) := by decide
theorem test_v45_call_sp : spPcMem 0xF3 (board 0 [0x50, 7]) = some (0xF3, 0xF3, 2) := by decide
theorem test_v46_ret : spPcMem 0xF3 (board 0 [0x11] (regsSp 0xF3) [(0xF3, 0x0F)]) = some (0xF4, 0x0F, 0x0F) := by
  decide
theorem test_v47_ret_past_memory :
    statusPc (board 0 [0x11] (regsSp 0xFF)) = some (.failed (.outOfRange (.sp 256)), 0) := by decide
theorem test_v48_jmp : r0Pc (board 0 [0x54, 0] (regs01 0x0F 0)) = some (0x0F, 0x0F) := by decide
theorem test_v50_jeq_not_taken : r0Pc (board 0 [0x55, 0] (regs01 0x40 0) [] 0x04) = some (0x40, 2) := by decide
theorem test_v51_jeq_at_the_top :
    statusPc (board 0xFE [0x55, 0] (regs01 0x40 0)) = some (.failed (.outOfRange (.pc 256)), 0xFE) := by decide
theorem test_v52_jne_taken : r0Pc (board 0 [0x56, 0] (regs01 0x0C 0) [] 0x04) = some (0x0C, 0x0C) := by decide
theorem test_v53_jne_reads_bit_zero : r0Pc (board 0 [0x56, 0] (regs01 0x0C 0) [] 0xFF) = some (0x0C, 2) := by decide
theorem test_v56_hlt_at_the_top : statusPc (board 0xFF [0x01]) = some (.halted, 0xFF) := by decide
theorem test_v62_iret :
    ((after (step (board 0 [0x13] (regsSp 0xEC)
      [(0xEC, 1), (0xED, 2), (0xEE, 3), (0xEF, 4), (0xF0, 5), (0xF1, 6), (0xF2, 0xFF), (0xF3, 0x20)]))).map
        fun t => (t.regs, t.fl, t.pc)) = some (#v[1, 2, 3, 4, 5, 6, 0, 0xF4], 0xFF, 0x20) := by decide
theorem test_v63_iret_past_memory :
    statusPc (board 0 [0x13] (regsSp 0xF8)) = some (.failed (.outOfRange (.sp 256)), 0) := by decide

/-! ## Interrupts: V65 to V69 -/

/-- The state before V65. -/
def v65 : State :=
  board 0x10 [0x82, 0, 0x10] (regsIrq 3 3 0xF4) [(0xF8, 0x40), (0xF9, 0x10), (0x40, 0x82), (0x41, 1), (0x42, 0x40),
    (0x43, 1)]

theorem test_v65_lowest_bit_delivered :
    ((after (step v65)).map fun t => (t.reg IS, t.reg SP, t.reg 1, t.pc)) = some (2, 0xEC, 0x40, 0x43) := by decide
theorem test_v65_frame :
    ((after (step v65)).map fun t => (t.readMem 0xF3, t.readMem 0xF2, t.readMem 0xF1, t.readMem 0xF0)) =
      some (0x10, 0, 3, 0) := by decide
theorem test_v66_second_delivery_nests :
    (((after (step v65)).bind fun t => after (step t)).map fun t => (t.reg IS, t.reg SP, t.reg 0, t.pc)) =
      some (0, 0xE4, 0x10, 0x13) := by decide
/-- V66 with NESTED_INTERRUPT_LATCH true: the HLT at 0x43 runs and IS = 02 stays. -/
theorem test_v66_latched :
    (((after (step { v65 with config := { specConfig with nestedInterruptLatch := true } })).bind fun t =>
      after (step t)).map fun t => (t.reg IS, t.status, t.latch)) = some (2, .halted, true) := by decide
theorem test_v67_key_masked :
    ((after (step { board 0 [0x83, 0, 1] (regs01 0 0xF4) with draws := [⟨false, some 0x41⟩] })).map
      fun t => (t.reg 0, t.reg IS, t.pc)) = some (0x41, 2, 3) := by decide
theorem test_v69_no_room_for_the_frame :
    ((after (step { board 0 [0x01] (regsIrq 1 0 5) with draws := [⟨true, none⟩] })).map
      fun t => (t.status, t.reg SP, t.reg IS, t.pc)) = some (.failed (.outOfRange (.sp (-1))), 0, 0, 0) := by decide

/-! ## Host: P1's image, the console lines, the assembly line, the image lines -/

/-- From reset to Running: the host preloads program P1 and starts the block, two steps (log 8). -/
theorem test_preload_and_start :
    (((after (step { State.reset with host := [.preload [0x82, 0, 8, 0x47, 0, 1], .start] })).bind fun t =>
      after (step t)).map fun t => (t.status, fetchBytes t, t.host)) = some (.running, [0x82, 0, 8], []) := by decide
theorem test_console_lines :
    consoleText [⟨.prn, 200⟩, ⟨.pra, 0x41⟩, ⟨.prn, 0⟩] =
      ['2', '0', '0', '\n', 'A', '\n', '0', '\n'] := by decide
theorem test_assembly_line :
    assemblyLine (.ldi 0 8) = ['L', 'D', 'I', ' ', 'R', '0', ',', '8'] ∧
    assemblyLine (.st 4 0) = ['S', 'T', ' ', 'R', '4', ',', 'R', '0'] ∧
    assemblyLine .hlt = ['H', 'L', 'T'] := by decide
theorem test_image_lines :
    parseImage [['1', '0', '0', '0', '0', '0', '1', '0', ' ', '#', 'L'], ['#', 'x'], [' '],
      [' ', '0', '0', '0', '0', '0', '0', '0', '1', '\n']] = some [0x82, 0x01] ∧
    parseImage [['1', '0', '0']] = none := by decide

/-! ## Witnesses: for every obligation with hypotheses, a state and operands that meet each clause's -/

/-- `s` Idle, with these host actions pending. -/
def idleWith (host : List HostAction) : State := { State.reset with host := host }

theorem witness_DecodeOfEncodeIsTheInstruction :
    specConfig.wf = true ∧ (Instr.ldi 7 0xFF).WellFormed specConfig = true ∧
    { specConfig with opcAddi := 0x00, aluBitwiseDispatched := false }.wf = true ∧
    (Instr.addi 0 0).WellFormed { specConfig with opcAddi := 0x00, aluBitwiseDispatched := false } = true := by decide
theorem witness_EncodeOfDecodeIsTheBytes :
    specConfig.wf = true ∧ decode specConfig [0x82, 0xFF, 0, 9] = .ok (.ldi 0xFF 0, [9]) := by decide
/-- An unassigned opcode; LDI whose last operand is at 255; LDI whose last operand is past it. -/
theorem witness_FetchDecodesOpcodeAndOperands :
    lookup specConfig ((board 0 [0xA3]).readMem 0) = none ∧
    (lookup specConfig ((board 0xFD [0x82]).readMem 0xFD) = some .ldi ∧ 0xFD + Op.ldi.operandCount ≤ 255) ∧
    (lookup specConfig ((board 0xFE [0x82]).readMem 0xFE) = some .ldi ∧ 255 < 0xFE + Op.ldi.operandCount) := by
  decide
theorem witness_StepRunsTheDecodedInstruction :
    ∃ s1, v65.status = .running ∧ interruptCheck (poll v65.nextDraw v65.takeDraw) = .ok s1 ∧
      decode s1.config (fetchBytes s1) = .ok (.ldi 1 0x40, []) ∧
      (board 0 [0x01]).status = .running ∧ (board 0 [0x01]).nextDraw = Draw.quiet ∧
      dueInterrupt (board 0 [0x01]) = none ∧
      decode (board 0 [0x01]).config (fetchBytes (board 0 [0x01])) = .ok (.hlt, [0, 0]) :=
  ⟨_, rfl, rfl, rfl, rfl, rfl, rfl, rfl⟩
/-- A delivery with room, and one with 7 bytes of room. -/
theorem witness_DeliveryAndHandlerInstructionShareACycle :
    ∃ s1 s2, v65.status = .running ∧ dueInterrupt (poll v65.nextDraw v65.takeDraw) = some 0 ∧
      deliver 0 (poll v65.nextDraw v65.takeDraw) = .ok s1 ∧
      dueInterrupt (poll Draw.quiet (board 0 [] (regsIrq 1 1 7)).takeDraw) = some 0 ∧
      deliver 0 (poll Draw.quiet (board 0 [] (regsIrq 1 1 7)).takeDraw) = .error s2 :=
  ⟨_, _, rfl, rfl, rfl, rfl, rfl⟩
theorem witness_RunningCycleHasANextState : (board 0 []).status = .running := rfl
theorem witness_TerminalStatesHaveNoNextState :
    ((board 0 []).setStatus .halted).status = .halted ∧
    ((board 0 []).fail (.divisionByZero 7)).status = .failed (.divisionByZero 7) := ⟨rfl, rfl⟩
theorem witness_OnlyHaltInstructionHalts :
    ∃ t, (board 0 []).status = .running ∧ exec .hlt (board 0 []) = .next t ∧ t.status = .halted := ⟨_, rfl, rfl, rfl⟩
/-- An image of all 256 bytes, and the empty image. -/
theorem witness_PreloadWritesTheImage :
    (idleWith [.preload (List.replicate 256 0xFF)]).status = .idle ∧ (List.replicate 256 (0xFF : Byte)).length ≤ 256 ∧
    (idleWith [.preload [], .start]).host = .preload [] :: [.start] := ⟨rfl, Nat.le_of_eq List.length_replicate, rfl⟩
/-- Nothing pending; a start; an image of 257 bytes. -/
theorem witness_StartMovesIdleToRunning :
    (idleWith []).status = .idle ∧ (idleWith []).host = [] ∧ (idleWith [.start]).host = .start :: [] ∧
    (idleWith [.preload (List.replicate 257 0)]).host = .preload (List.replicate 257 0) :: [] ∧
    256 < (List.replicate 257 (0 : Byte)).length := ⟨rfl, rfl, rfl, rfl, by rw [List.length_replicate]; decide⟩
theorem witness_HostIsInvisibleWhileRunning :
    ∃ t, (board 0 [0x01]).status = .running ∧ step (board 0 [0x01]) = .next t := ⟨_, rfl, rfl⟩
theorem witness_MemoryPrimitivesReadAndWriteOneCell :
    (0 ≤ (0 : Int) ∧ (0 : Int) ≤ 255) ∧ (0 ≤ (255 : Int) ∧ (255 : Int) ≤ 255) ∧ ((-1 : Int) < 0 ∨ (255 : Int) < -1) ∧
    ((256 : Int) < 0 ∨ (255 : Int) < 256) := by decide
/-- Byte 1 is checked before byte 2. -/
theorem witness_RegisterOperandAboveSevenFails :
    (Instr.add 8 9).registerOperands.find? (fun x => decide (8 ≤ x.toNat)) = some 8 ∧
    (Instr.add 7 0xFF).registerOperands.find? (fun x => decide (8 ≤ x.toNat)) = some 0xFF := by decide
/-- LDI with its next instruction at 255, and past it. -/
theorem witness_DefaultAdvanceFollowsTheEffect :
    ∃ t, (Instr.ldi 0 5).op.ownsPc = false ∧ (board 0xFC []).status = .running ∧
      exec (.ldi 0 5) ((board 0xFC []).setPc 0) = .next t ∧ t.status = .running ∧
      (board 0xFC []).pc.toNat + 1 + (Instr.ldi 0 5).op.operandCount ≤ 255 ∧
      255 < (board 0xFD []).pc.toNat + 1 + (Instr.ldi 0 5).op.operandCount := ⟨_, rfl, rfl, rfl, rfl, by decide, by decide⟩
/-- Two register operands, the first and the last register, the instruction's end at 255: also the hypotheses of the
statements on the bitwise operations, the shifts, CMP, LD and ST. -/
theorem witness_AddSubMulWrapModulo256 : Names 0 0 ∧ Names 7 7 ∧ (board 0xFC []).pc.toNat + 3 ≤ 255 := by decide
theorem witness_ModIsTheUnsignedRemainder :
    Names 0 0 ∧ Names 1 1 ∧ (board 0xFC [] (regs01 9 1)).reg 1 ≠ 0 ∧ (board 0xFC [] (regs01 9 1)).pc.toNat + 3 ≤ 255 ∧
    (board 0 [] (regs01 9 0)).reg 1 = 0 := by decide
theorem witness_BitwiseOperationsActBitByBit : Names 2 2 ∧ Names 7 7 ∧ (board 0xFC []).pc.toNat + 3 ≤ 255 := by decide
theorem witness_ShiftsAreLogicalByTheWholeByte :
    Names 0 0 ∧ Names 1 1 ∧ (board 0xFC [] (regs01 0xFF 8)).pc.toNat + 3 ≤ 255 ∧
    8 ≤ ((board 0xFC [] (regs01 0xFF 8)).reg 1).toNat := by decide
theorem witness_CompareSetsExactlyOneFlag :
    Names 0 0 ∧ Names 1 1 ∧ (board 0xFC []).pc.toNat + 3 ≤ 255 ∧
    ((board 0xFC [] (regs01 0 1)).reg 0).toNat < ((board 0xFC [] (regs01 0 1)).reg 1).toNat ∧
    ((board 0xFC [] (regs01 1 0)).reg 1).toNat < ((board 0xFC [] (regs01 1 0)).reg 0).toNat ∧
    ((board 0xFC [] (regs01 7 7)).reg 0).toNat = ((board 0xFC [] (regs01 7 7)).reg 1).toNat := by decide
theorem witness_UnaryOperationsActInPlace : Names 7 7 ∧ (board 0xFD []).pc.toNat + 2 ≤ 255 := by decide
theorem witness_ImmediateIsTheWholeByte : Names 7 7 ∧ (board 0xFC []).pc.toNat + 3 ≤ 255 := by decide
theorem witness_LoadReadsTheAddressedByte : Names 7 7 ∧ Names 0 0 ∧ (board 0xFC []).pc.toNat + 3 ≤ 255 := by decide
theorem witness_StoreWritesTheAddressedByte : Names 0 0 ∧ Names 7 7 ∧ (board 0xFC []).pc.toNat + 3 ≤ 255 := by decide
theorem witness_PrintAppendsOneRecord : Names 7 7 ∧ (board 0xFD []).pc.toNat + 2 ≤ 255 := by decide
/-- An instruction that prints nothing, a check that delivers, one that fails, a step of an Idle block and one that
prints. -/
theorem witness_OnlyPrintInstructionsAppendToTheConsole :
    ∃ t u v w x, exec .hlt (board 0 []) = .next t ∧ (∀ r, Instr.hlt ≠ .prn r) ∧ (∀ r, Instr.hlt ≠ .pra r) ∧
      interruptCheck v65 = .ok u ∧ interruptCheck (board 0 [] (regsIrq 1 1 7)) = .error v ∧
      (idleWith [.start]).status ≠ .running ∧ step (idleWith [.start]) = .next w ∧
      step (board 0 [0x47, 0]) = .next x := ⟨_, _, _, _, _, rfl, nofun, nofun, rfl, rfl, nofun, rfl, rfl⟩
/-- R0 and R7, SP at 1 with the instruction's end at 255, and SP at 0. -/
theorem witness_PushStoresBelowTheStackPointer :
    Names 0 0 ∧ Names 7 7 ∧ 1 ≤ ((board 0xFD [] (regsSp 1)).reg SP).toNat ∧
    (board 0xFD [] (regsSp 1)).pc.toNat + 2 ≤ 255 ∧ ((board 0 [] (regsSp 0)).reg SP).toNat = 0 := by decide
theorem witness_PopReadsAtTheStackPointer :
    (Names 0 0 ∧ (0 : RegIdx) ≠ SP ∧ ((board 0xFD [] (regsSp 254)).reg SP).toNat ≤ 254 ∧
      (board 0xFD [] (regsSp 254)).pc.toNat + 2 ≤ 255) ∧
    (Names 7 SP ∧ ((board 0xFD [] (regsSp 9) [(9, 254)]).readMem 9).toNat ≤ 254) ∧
    ((board 0 [] (regsSp 255)).reg SP).toNat = 255 ∧
    (board 0 [] (regsSp 9) [(9, 255)]).readMem ((board 0 [] (regsSp 9) [(9, 255)]).reg SP).toNat = 255 := by decide
theorem witness_StackPrimitivesPushAndPopOneByte :
    1 ≤ ((board 0 [] (regsSp 1)).reg SP).toNat ∧ ((board 0 [] (regsSp 0)).reg SP).toNat = 0 ∧
    ((board 0 [] (regsSp 255)).reg SP).toNat = 255 := by decide
theorem witness_PushThenPopLeavesTheRegisterUnchanged :
    Names 7 7 ∧ 1 ≤ ((board 0xFB [] (regsSp 1)).reg SP).toNat ∧ (board 0xFB [] (regsSp 1)).pc.toNat + 4 ≤ 255 := by
  decide
/-- A return address of 255, one of 256, and SP at 1 and at 0. -/
theorem witness_CallPushesTheReturnAddress :
    Names 0 0 ∧ Names 7 7 ∧ (board 0xFD [] (regsSp 1)).pc.toNat + 2 ≤ 255 ∧
    1 ≤ ((board 0xFD [] (regsSp 1)).reg SP).toNat ∧ 255 < (board 0xFE []).pc.toNat + 2 ∧
    ((board 0xFD [] (regsSp 0)).reg SP).toNat = 0 := by decide
theorem witness_ReturnPopsTheProgramCounter :
    ((board 0 [] (regsSp 254)).reg SP).toNat ≤ 254 ∧ ((board 0 [] (regsSp 255)).reg SP).toNat = 255 := by decide
/-- The subroutine at its first instruction. -/
theorem witness_CallThenReturnResumesAfterTheCall :
    ∃ t, (0 : Byte).toNat < 8 ∧ (board 0xFD []).pc.toNat + 2 ≤ 255 ∧ 1 ≤ ((board 0xFD []).reg SP).toNat ∧
      exec (.call 0) (board 0xFD []) = .next t ∧ (t.setReg 0 9).reg SP = t.reg SP ∧
      (t.setReg 0 9).readMem (t.reg SP).toNat = t.readMem (t.reg SP).toNat :=
  ⟨_, by decide, by decide, by decide, rfl, rfl, rfl⟩
theorem witness_JumpGoesToTheRegister : Names 0 0 ∧ Names 7 7 := by decide
/-- E set and clear, an end at 255 and one at 256. -/
theorem witness_ConditionalJumpsReadTheEqualFlag :
    Names 7 7 ∧ (board 0xFD [] (fl := 0xFF)).fl.getLsbD 0 = true ∧ (board 0xFD [] (fl := 0xFE)).fl.getLsbD 0 = false ∧
    (board 0xFD []).pc.toNat + 2 ≤ 255 ∧ 255 < (board 0xFE []).pc.toNat + 2 := by decide
/-- An instruction other than CMP and IRET, a check that delivers, and one that fails. -/
theorem witness_OnlyCompareAndInterruptReturnWriteFlags :
    ∃ t u v, exec .hlt (board 0 []) = .next t ∧ (∀ a b, Instr.hlt ≠ .cmp a b) ∧ Instr.hlt ≠ .iret ∧
      interruptCheck v65 = .ok u ∧ interruptCheck (board 0 [] (regsIrq 1 1 7)) = .error v :=
  ⟨_, _, _, rfl, nofun, nofun, rfl, rfl⟩
theorem witness_OnlyStoresPushesAndCallsWriteMemory :
    ∃ t u v w, exec (.st 0 1) (board 0 []) = .next t ∧ Names 0 0 ∧ exec (.push 1) (board 0 []) = .next u ∧
      exec (.call 1) (board 0 []) = .next v ∧ exec .ret (board 0 []) = .next w ∧ (∀ a b, Instr.ret ≠ .st a b) ∧
      (∀ r, Instr.ret ≠ .push r) ∧ (∀ r, Instr.ret ≠ .call r) :=
  ⟨_, _, _, _, rfl, rfl, rfl, rfl, rfl, nofun, nofun, nofun⟩
theorem witness_StepKeepsTheConfiguration : ∃ t, step v65 = .next t := ⟨_, rfl⟩
theorem witness_StepKeepsTheInvariant : ∃ t, v65.Inv ∧ step v65 = .next t := ⟨_, ⟨by decide, by decide⟩, rfl⟩
theorem witness_PollSetsPendingBitsAndKeyCell :
    ∃ t u, (Draw.mk true (some 0xFF)).key = some 0xFF ∧ (Draw.mk true none).key = none ∧
      interruptCheck (poll ⟨true, none⟩ v65) = .ok t ∧
      interruptCheck (poll ⟨true, none⟩ (board 0 [] (regsIrq 1 0 7))) = .error u := ⟨_, _, rfl, rfl, rfl, rfl⟩
/-- The bits 1 and 7 pending and enabled; none enabled; a latched machine with its latch set. -/
theorem witness_LowestEnabledPendingInterruptIsDelivered :
    (((board 0 [] (regsIrq 0x82 0xFF 0)).config.nestedInterruptLatch && false) = false ∧
      (((board 0 [] (regsIrq 0x82 0xFF 0)).reg IM).getLsbD 1 && ((board 0 [] (regsIrq 0x82 0xFF 0)).reg IS).getLsbD 1) =
        true ∧
      ∀ j : RegIdx, j.val < 1 →
        (((board 0 [] (regsIrq 0x82 0xFF 0)).reg IM).getLsbD j.val &&
          ((board 0 [] (regsIrq 0x82 0xFF 0)).reg IS).getLsbD j.val) = false) ∧
    (∀ j : RegIdx, (((board 0 [] (regsIrq 0x0F 0xF0 0)).reg IM).getLsbD j.val &&
      ((board 0 [] (regsIrq 0x0F 0xF0 0)).reg IS).getLsbD j.val) = false) ∧
    ({ specConfig with nestedInterruptLatch := true }.nestedInterruptLatch && true) = true := by decide
/-- A frame that fills 0..7, the keyboard's slot, and a slot that is a parameter. -/
theorem witness_DeliveryPushesTheInterruptFrame :
    8 ≤ ((board 0 [] (regsSp 8)).reg SP).toNat ∧ (1 : RegIdx).val < 2 ∧
    (board 0 [] (regsSp 8)).config.highVectors = specConfig.highVectors := by decide
theorem witness_DeliveryWithoutRoomFails :
    (board 0 [] (regsIrq 1 1 7)).status = .running ∧
    dueInterrupt (poll (board 0 [] (regsIrq 1 1 7)).nextDraw (board 0 [] (regsIrq 1 1 7)).takeDraw) = some 0 ∧
    ((board 0 [] (regsIrq 1 1 7)).reg SP).toNat < 8 := by decide
theorem witness_InterruptReturnPopsTheFrame :
    ((board 0 [] (regsSp 0xF7)).reg SP).toNat ≤ 0xF7 ∧ 0xF7 < ((board 0 [] (regsSp 0xF8)).reg SP).toNat := by decide
/-- A handler that has changed R1 and a cell outside the frame. -/
theorem witness_DeliveryThenInterruptReturnRestores :
    ∃ t, deliver 0 v65 = .ok t ∧ ((t.setReg 1 9).writeMem 0x80 1).reg SP = t.reg SP ∧
      ∀ k, k < 8 → ((t.setReg 1 9).writeMem 0x80 1).readMem ((t.reg SP).toNat + k) = t.readMem ((t.reg SP).toNat + k) :=
  ⟨_, rfl, by decide, by decide⟩

end Sys2Proof.Tests
end

section
/-! What one step can do, said once: a move of the host on an Idle block or a cycle of a Running one. -/

namespace Sys2Proof.Machine

/-- The host waits, preloads an image that fits, or starts the block (60_exceptions.md R218). -/
theorem hostMove_cases {s t : State} (h : hostMove s = .next t) :
    (s.host = [] ∧ t = s) ∨
      (∃ image rest, s.host = .preload image :: rest ∧ image.length ≤ 256 ∧
        t = preload image { s with host := rest }) ∨
      (∃ rest, s.host = .start :: rest ∧ t = { s with host := rest, status := .running }) := by
  unfold hostMove at h
  split at h
  case h_1 hnil => exact .inl ⟨hnil, (Host.Outcome.next.inj h).symm⟩
  case h_2 image rest hpre =>
    split at h
    case isTrue => cases h
    case isFalse hfits =>
      exact .inr (.inl ⟨image, rest, hpre, Nat.not_lt.mp hfits, (Host.Outcome.next.inj h).symm⟩)
  case h_3 rest hstart => exact .inr (.inr ⟨rest, hstart, (Host.Outcome.next.inj h).symm⟩)

/-- A step with a next state is a host move in Idle or a cycle in Running (10_state.md R29, 40_dispatch.md R80). -/
theorem step_cases {s t : State} (h : step s = .next t) :
    (s.status = .idle ∧ hostMove s = .next t) ∨
      (s.status = .running ∧ cycle s.nextDraw s.takeDraw = .next t) := by
  unfold step at h
  split at h
  case h_1 hidle => exact .inl ⟨hidle, h⟩
  case h_2 hrunning => exact .inr ⟨hrunning, h⟩
  case h_3 => cases h
  case h_4 => cases h

@[simp] theorem preload_out (image : List Byte) (s : State) : (preload image s).out = s.out := rfl
@[simp] theorem preload_config (image : List Byte) (s : State) : (preload image s).config = s.config := rfl

theorem hostMove_out {s t : State} (h : hostMove s = .next t) : t.out = s.out := by
  rcases hostMove_cases h with ⟨-, rfl⟩ | ⟨image, rest, -, -, rfl⟩ | ⟨rest, -, rfl⟩
  · rfl
  · exact preload_out image _
  · rfl

theorem hostMove_config {s t : State} (h : hostMove s = .next t) : t.config = s.config := by
  rcases hostMove_cases h with ⟨-, rfl⟩ | ⟨image, rest, -, -, rfl⟩ | ⟨rest, -, rfl⟩
  · rfl
  · exact preload_config image _
  · rfl

/-- Where both ends of an operation have a property, the state it answers has it. -/
theorem Ends.of_eq {P : State → Prop} {x : Except State State} {t : State} (hx : Ends P x)
    (h : x = .ok t ∨ x = .error t) : P t := by
  rcases h with rfl | rfl
  · exact hx
  · exact hx

end Sys2Proof.Machine
end

section
/-! The parameters, the opcode map with them, are fixed (10_state.md R34). -/

namespace Sys2Proof.Machine

theorem keptByBasics_config (Q : Config → Prop) : KeptByBasics fun u => Q u.config where
  reg _ _ _ hu := hu
  pc _ _ hu := hu
  fail _ _ hu := hu

theorem cycle_config {d : Draw} {s t : State} (h : cycle d s = .next t) : t.config = s.config :=
  cycle_keeps (P := fun u => u.config = s.config) (keptByBasics_config (· = s.config))
    (w := fun _ _ _ hu => hu) (hfl := fun _ _ hu => hu) (hout := fun _ _ _ hu => hu) (hhalt := fun _ hu => hu)
    (hlatch := fun u v hu => (setLatch_config u v).trans hu) (hs := rfl) (h := h)

/-- Settles O42: a host move keeps the parameters, and so does every update a cycle is made of. -/
theorem stepKeepsTheConfiguration : Obligations.StepKeepsTheConfiguration := by
  unfold Obligations.StepKeepsTheConfiguration
  intro s t h
  rcases step_cases h with ⟨-, hmove⟩ | ⟨-, hcycle⟩
  · exact hostMove_config hmove
  · exact (cycle_config hcycle).trans s.takeDraw_config

end Sys2Proof.Machine
end

section
/-! The console output: only PRN and PRA append to it, and no record is removed (10_state.md R30). -/

namespace Sys2Proof.Machine

theorem keptByBasics_out (Q : List OutRecord → Prop) : KeptByBasics fun u => Q u.out where
  reg _ _ _ hu := hu
  pc _ _ hu := hu
  fail _ _ hu := hu

theorem exec_out_of_not_print {i : Instr} {s t : State} (h : exec i s = .next t) (hprn : ∀ r, i ≠ .prn r)
    (hpra : ∀ r, i ≠ .pra r) : t.out = s.out := by
  have hemit : (∃ r, i = .prn r ∨ i = .pra r) → ∀ u o v, u.out = s.out → (emit o v u).out = s.out := by
    rintro ⟨r, hr | hr⟩
    · exact absurd hr (hprn r)
    · exact absurd hr (hpra r)
  exact exec_keeps (P := fun u => u.out = s.out) (keptByBasics_out (· = s.out)) i
    (hfl := fun _ _ _ hu => hu) (hmem := fun _ _ _ _ hu => hu) (hout := hemit) (hhalt := fun _ _ hu => hu)
    (hlatch := fun _ u v hu => (setLatch_out u v).trans hu) (hs := rfl) (h := h)

theorem poll_out (d : Draw) (s : State) : (poll d s).out = s.out :=
  poll_keeps (P := fun u => u.out = s.out) (hreg := fun _ _ _ hu => hu) (hkey := fun _ _ hu => hu) d rfl

theorem interruptCheck_out {s t : State} (h : interruptCheck s = .ok t ∨ interruptCheck s = .error t) :
    t.out = s.out :=
  (interruptCheck_keeps (P := fun u => u.out = s.out) (keptByBasics_out (· = s.out))
    (w := fun _ _ _ hu => hu) (hlatch := fun u v hu => (setLatch_out u v).trans hu) (hs := rfl)).of_eq h

/-- A cycle keeps the records already emitted, in order: of its updates, only `emit` touches them, and it appends
(42_data_io.md R145). -/
theorem cycle_out_prefix {d : Draw} {s t : State} (h : cycle d s = .next t) : s.out <+: t.out :=
  cycle_keeps (P := fun u => s.out <+: u.out) (keptByBasics_out (s.out <+: ·))
    (w := fun _ _ _ hu => hu) (hfl := fun _ _ hu => hu)
    (hout := fun u o v hu => hu.trans (List.prefix_append u.out [⟨o, v⟩])) (hhalt := fun _ hu => hu)
    (hlatch := fun u v hu => (setLatch_out u v).symm ▸ hu) (hs := List.prefix_rfl) (h := h)

theorem step_out_of_not_running {s t : State} (hs : s.status ≠ .running) (h : step s = .next t) :
    t.out = s.out := by
  rcases step_cases h with ⟨-, hmove⟩ | ⟨hrunning, -⟩
  · exact hostMove_out hmove
  · exact absurd hrunning hs

theorem step_out_prefix {s t : State} (h : step s = .next t) : s.out <+: t.out := by
  rcases step_cases h with ⟨-, hmove⟩ | ⟨-, hcycle⟩
  · rw [hostMove_out hmove]
  · exact s.takeDraw_out ▸ cycle_out_prefix hcycle

/-- Settles O29: the output is empty at reset, each kind of action other than PRN and PRA leaves it as it is, and every
step keeps the records already there. -/
theorem onlyPrintInstructionsAppendToTheConsole : Obligations.OnlyPrintInstructionsAppendToTheConsole := by
  unfold Obligations.OnlyPrintInstructionsAppendToTheConsole
  have hreset : State.reset.out = [] := rfl
  exact ⟨hreset, fun _ _ _ => exec_out_of_not_print, poll_out, fun _ _ => interruptCheck_out,
    fun _ _ => step_out_of_not_running, fun _ _ => step_out_prefix⟩

end Sys2Proof.Machine
end

section
/-! The memory primitives: one cell inside 0..255, a fatal error outside (20_memory.md R41). -/

namespace Sys2Proof.Machine

theorem memRead_ok {a : Int} (h : 0 ≤ a ∧ a ≤ 255) (s : State) : memRead a s = .ok (s.readMem a.toNat) :=
  if_neg (by omega)

theorem memRead_error {a : Int} (h : a < 0 ∨ 255 < a) (s : State) :
    memRead a s = .error (s.fail (.outOfRange (.addr a))) :=
  if_pos h

theorem memWrite_ok {a : Int} (h : 0 ≤ a ∧ a ≤ 255) (v : Byte) (s : State) :
    memWrite a v s = .ok (s.writeMem a.toNat v) :=
  if_neg (by omega)

theorem memWrite_error {a : Int} (h : a < 0 ∨ 255 < a) (v : Byte) (s : State) :
    memWrite a v s = .error (s.fail (.outOfRange (.addr a))) :=
  if_pos h

/-- A write leaves every other byte and all state outside memory as it was; pc, which `Frame` leaves open, is
`State.writeMem_pc`. -/
theorem State.writeMem_frame (s : State) (a : Nat) (v : Byte) : Frame [] [a] s (s.writeMem a v) := by
  have hregs : RegsSameBut [] s (s.writeMem a v) := fun r _ => s.writeMem_reg a v r
  have hmem : MemSameBut [a] s (s.writeMem a v) := fun _ hb =>
    s.readMem_writeMem_other v (List.ne_of_not_mem_cons hb)
  have hcontrol : ControlSame s (s.writeMem a v) := ⟨rfl, rfl, rfl, rfl, rfl, rfl⟩
  exact ⟨hregs, hmem, s.writeMem_fl a v, s.writeMem_out a v, hcontrol⟩

/-- Settles O16: inside 0..255 both primitives pass the bounds check and a write has the one-cell frame; outside, the
check raises before any effect. -/
theorem memoryPrimitivesReadAndWriteOneCell : Obligations.MemoryPrimitivesReadAndWriteOneCell := by
  unfold Obligations.MemoryPrimitivesReadAndWriteOneCell
  intro s a v
  constructor
  · intro hin
    exact ⟨memRead_ok hin s, s.writeMem a.toNat v, memWrite_ok hin v s, s.readMem_writeMem_same a.toNat v,
      s.writeMem_pc a.toNat v, s.writeMem_frame a.toNat v⟩
  · intro hout
    exact ⟨memRead_error hout s, memWrite_error hout v s⟩

end Sys2Proof.Machine
end

section
/-! The fetch of one instruction: the opcode at pc, and the operand bytes after it (40_dispatch.md R82, R83). -/

namespace Sys2Proof.Machine

theorem executeOne_of_fetched {s : State} {i : Instr} (h : fetchInstr s = .ok i) : executeOne s = exec i s := by
  rw [executeOne, h]

theorem executeOne_of_fetch_failed {s : State} {e : FatalError} (h : fetchInstr s = .error e) :
    executeOne s = .next (s.fail e) := by
  rw [executeOne, h]

/-- An unassigned opcode ends the decoding, whatever bytes follow it (40_dispatch.md R82). -/
theorem decode_fetchBytes_of_unassigned {s : State} (h : lookup s.config (s.readMem s.pc.toNat) = none) :
    decode s.config (fetchBytes s) = .error (.unassigned (s.readMem s.pc.toNat)) := by
  rw [fetchBytes_cons, decode, h]

theorem decode_fetchBytes_of_assigned {s : State} {op : Op} (h : lookup s.config (s.readMem s.pc.toNat) = some op) :
    decode s.config (fetchBytes s) = decodeOperands op (s.mem.window (s.pc.toNat + 1) 2) := by
  rw [fetchBytes_cons, decode, h]

theorem fetchInstr_of_unassigned {s : State} (h : lookup s.config (s.readMem s.pc.toNat) = none) :
    fetchInstr s = .error (.unsupportedOperation (s.readMem s.pc.toNat) s.pc) := by
  rw [fetchInstr, decode_fetchBytes_of_unassigned h]

theorem fetchInstr_of_operands_fit {s : State} {op : Op} (h : lookup s.config (s.readMem s.pc.toNat) = some op)
    (hfit : s.pc.toNat + op.operandCount ≤ 255) :
    fetchInstr s = .ok (assemble op (s.readMem (s.pc.toNat + 1)) (s.readMem (s.pc.toNat + 2))) := by
  obtain ⟨rest, hdecode⟩ := (decodeOperands_window s op).1 hfit
  rw [fetchInstr, decode_fetchBytes_of_assigned h, hdecode]

/-- Operands are read in order of address, so the first one past memory is at 256 (40_dispatch.md R83). -/
theorem fetchInstr_of_operand_past_memory {s : State} {op : Op}
    (h : lookup s.config (s.readMem s.pc.toNat) = some op) (hpast : 255 < s.pc.toNat + op.operandCount) :
    fetchInstr s = .error (.outOfRange (.addr 256)) := by
  obtain ⟨k, hk, hdecode⟩ := (decodeOperands_window s op).2 hpast
  have haddr : (s.pc.toNat : Int) + k = 256 := by omega
  rw [fetchInstr, decode_fetchBytes_of_assigned h, hdecode]
  simp only [haddr]

/-- Settles O5: by the opcode's row and whether the last operand lies inside memory, the fetch answers one of three, and
`executeOne` runs the instruction or records the error. -/
theorem fetchDecodesOpcodeAndOperands : Obligations.FetchDecodesOpcodeAndOperands := by
  unfold Obligations.FetchDecodesOpcodeAndOperands
  intro s
  constructor
  · intro hnone
    exact executeOne_of_fetch_failed (fetchInstr_of_unassigned hnone)
  · intro op hop
    constructor
    · intro hfit
      exact executeOne_of_fetched (fetchInstr_of_operands_fit hop hfit)
    · intro hpast
      exact executeOne_of_fetch_failed (fetchInstr_of_operand_past_memory hop hpast)

end Sys2Proof.Machine
end

section
/-! Frames: how they widen and chain, and the frame of a register write. -/

namespace Sys2Proof.Machine

theorem Frame.refl (regs : List RegIdx) (mem : List Nat) (s : State) : Frame regs mem s s :=
  ⟨fun _ _ => rfl, fun _ _ => rfl, rfl, rfl, rfl, rfl, rfl, rfl, rfl, rfl⟩

theorem Frame.mono {regs regs' : List RegIdx} {mem mem' : List Nat} {s t : State} (h : Frame regs mem s t)
    (hr : regs ⊆ regs') (hm : mem ⊆ mem') : Frame regs' mem' s t := by
  obtain ⟨hregs, hmem, hrest⟩ := h
  exact ⟨fun r hnot => hregs r fun hin => hnot (hr hin), fun a hnot => hmem a fun hin => hnot (hm hin), hrest⟩

theorem ControlSame.trans {s t u : State} (h : ControlSame s t) (h' : ControlSame t u) : ControlSame s u := by
  obtain ⟨hstatus, hlatch, hconfig, hhost, hdraws, hpolls⟩ := h
  obtain ⟨hstatus', hlatch', hconfig', hhost', hdraws', hpolls'⟩ := h'
  exact ⟨hstatus'.trans hstatus, hlatch'.trans hlatch, hconfig'.trans hconfig, hhost'.trans hhost,
    hdraws'.trans hdraws, hpolls'.trans hpolls⟩

theorem Frame.trans {regs : List RegIdx} {mem : List Nat} {s t u : State} (h : Frame regs mem s t)
    (h' : Frame regs mem t u) : Frame regs mem s u := by
  obtain ⟨hregs, hmem, hfl, hout, hcontrol⟩ := h
  obtain ⟨hregs', hmem', hfl', hout', hcontrol'⟩ := h'
  exact ⟨fun r hr => (hregs' r hr).trans (hregs r hr), fun a ha => (hmem' a ha).trans (hmem a ha),
    hfl'.trans hfl, hout'.trans hout, hcontrol.trans hcontrol'⟩

/-- A register write leaves every other register and all state outside the registers as it was; pc, which `Frame`
leaves open, is `State.setReg_pc`. -/
theorem State.setReg_frame (s : State) (r : RegIdx) (v : Byte) : Frame [r] [] s (s.setReg r v) := by
  have hregs : RegsSameBut [r] s (s.setReg r v) := fun _ hq => s.reg_setReg_other v (List.ne_of_not_mem_cons hq)
  exact ⟨hregs, fun a _ => s.setReg_readMem r v a, s.setReg_fl r v, s.setReg_out r v, rfl, rfl, rfl, rfl, rfl, rfl⟩

end Sys2Proof.Machine
end

section
/-! The poll: it sets bits of IS and writes the key cell, before the check and the instruction (60_exceptions.md R204,
40_dispatch.md R81). -/

namespace Sys2Proof.Machine

/-- Setting bit `i` of a byte changes no other bit. -/
theorem getLsbD_or_twoPow (v : Byte) {i : Nat} (hi : i < 8) (k : Nat) :
    (v ||| BitVec.twoPow 8 i).getLsbD k = (v.getLsbD k || k == i) := by
  rw [BitVec.getLsbD_or, BitVec.getLsbD_twoPow, decide_eq_true hi, Bool.true_and, beq_eq_decide]
  simp only [eq_comm]

theorem pollTimer_true_IS (s : State) : (pollTimer true s).reg IS = s.reg IS ||| BitVec.twoPow 8 0 :=
  s.reg_setReg_same IS _

theorem pollKeyboard_some_IS (code : Byte) (s : State) :
    (pollKeyboard (some code) s).reg IS = s.reg IS ||| BitVec.twoPow 8 1 :=
  (s.writeMem keyCell code).reg_setReg_same IS _

theorem pollTimer_frame (tick : Bool) (s : State) : Frame [IS] [] s (pollTimer tick s) := by
  unfold pollTimer
  split
  · exact s.setReg_frame IS _
  · exact Frame.refl _ _ s

theorem pollTimer_pendingBit (tick : Bool) (s : State) (k : Nat) :
    ((pollTimer tick s).reg IS).getLsbD k = ((s.reg IS).getLsbD k || (tick && k == 0)) := by
  cases tick with
  | false => simp [pollTimer]
  | true => rw [pollTimer_true_IS, getLsbD_or_twoPow _ (by decide), Bool.true_and]

theorem pollKeyboard_frame (key : Option Byte) (s : State) : Frame [IS] [keyCell] s (pollKeyboard key s) := by
  cases key with
  | none => exact Frame.refl _ _ s
  | some code =>
    have hcell : Frame [IS] [keyCell] s (s.writeMem keyCell code) :=
      (s.writeMem_frame keyCell code).mono (by simp) (by simp)
    exact hcell.trans ((State.setReg_frame _ IS _).mono (by simp) (by simp))

theorem pollKeyboard_pendingBit (key : Option Byte) (s : State) (k : Nat) :
    ((pollKeyboard key s).reg IS).getLsbD k = ((s.reg IS).getLsbD k || (key.isSome && k == 1)) := by
  cases key with
  | none => simp [pollKeyboard]
  | some code => rw [pollKeyboard_some_IS, getLsbD_or_twoPow _ (by decide), Option.isSome_some, Bool.true_and]

theorem pollKeyboard_keyCell (code : Byte) (s : State) : (pollKeyboard (some code) s).readMem keyCell = code := by
  simp [pollKeyboard]

theorem poll_frame (d : Draw) (s : State) : Frame [IS] [keyCell] s (poll d s) :=
  ((pollTimer_frame d.tick s).mono (by simp) (by simp)).trans (pollKeyboard_frame d.key _)

/-- The timer's part and the keyboard's part each add their own bit, and neither reads IM (60_exceptions.md R204). -/
theorem poll_pendingBit (d : Draw) (s : State) (k : Nat) :
    ((poll d s).reg IS).getLsbD k = ((s.reg IS).getLsbD k || (d.tick && k == 0) || (d.key.isSome && k == 1)) := by
  rw [poll, pollKeyboard_pendingBit, pollTimer_pendingBit]

theorem poll_keyCell {d : Draw} {code : Byte} (h : d.key = some code) (s : State) :
    (poll d s).readMem keyCell = code := by
  rw [poll, h, pollKeyboard_keyCell]

theorem poll_of_no_key {d : Draw} (h : d.key = none) (s : State) : poll d s = pollTimer d.tick s := by
  rw [poll, h, pollKeyboard]

theorem poll_memory_of_no_key {d : Draw} (h : d.key = none) (s : State) : MemSameBut [] s (poll d s) := by
  obtain ⟨-, hmem, -⟩ := pollTimer_frame d.tick s
  rwa [poll_of_no_key h]

theorem poll_pc (d : Draw) (s : State) : (poll d s).pc = s.pc :=
  poll_keeps (P := fun u => u.pc = s.pc) (hreg := fun _ _ _ hu => hu) (hkey := fun _ _ hu => hu) d rfl

theorem cycle_of_check_ok {d : Draw} {s t : State} (h : interruptCheck (poll d s) = .ok t) :
    cycle d s = executeOne t := by
  rw [cycle, h]

theorem cycle_of_check_error {d : Draw} {s t : State} (h : interruptCheck (poll d s) = .error t) :
    cycle d s = .next t := by
  rw [cycle, h]

/-- Settles O45: the bits of IS and the key cell by the poll's two parts, the rest by its frame, and the cycle by what
the check answers on the polled state. -/
theorem pollSetsPendingBitsAndKeyCell : Obligations.PollSetsPendingBitsAndKeyCell := by
  unfold Obligations.PollSetsPendingBitsAndKeyCell
  intro d s
  obtain ⟨hregs, hmem, hfl, hout, hcontrol⟩ := poll_frame d s
  exact ⟨fun k _ => poll_pendingBit d s k, fun code hkey => ⟨poll_keyCell hkey s, hmem⟩,
    fun hkey => poll_memory_of_no_key hkey s, hregs, poll_pc d s, hfl, hout, hcontrol,
    fun _ => cycle_of_check_ok, fun _ => cycle_of_check_error⟩

end Sys2Proof.Machine
end

section
/-! The preload of an Idle block: the image from address 0, every other cell and all state outside memory as it was
(70_reset_and_hazards.md R251). -/

namespace Sys2Proof.Machine

theorem step_of_idle {s : State} (h : s.status = .idle) : step s = hostMove s := by
  rw [step, h]

theorem hostMove_of_preload {s : State} {image : List Byte} {rest : List HostAction}
    (h : s.host = .preload image :: rest) (hfits : image.length ≤ 256) :
    hostMove s = .next (preload image { s with host := rest }) := by
  rw [hostMove, h]
  exact if_neg (Nat.not_lt.mpr hfits)

theorem preload_readMem (image : List Byte) (s : State) (a : Nat) :
    (preload image s).readMem a = (image[a]?).getD (s.readMem a) := by
  have hread := Memory.read_writeFrom s.mem 0 image a
  rwa [if_pos (Nat.zero_le a), Nat.sub_zero] at hread

theorem preload_readMem_of_lt {image : List Byte} {a : Nat} (h : a < image.length) (s : State) :
    (preload image s).readMem a = image[a] := by
  rw [preload_readMem, List.getElem?_eq_getElem h, Option.getD_some]

theorem preload_readMem_of_le {image : List Byte} {a : Nat} (h : image.length ≤ a) (s : State) :
    (preload image s).readMem a = s.readMem a := by
  rw [preload_readMem, List.getElem?_eq_none h, Option.getD_none]

/-- Settles O12: the host's move is the preload, which below the image's length reads the image and from there up the
memory before it; every other field is the one it had. -/
theorem preloadWritesTheImage : Obligations.PreloadWritesTheImage := by
  unfold Obligations.PreloadWritesTheImage
  intro s image rest hidle hhost hfits
  have hstep : step s = .next (preload image { s with host := rest }) :=
    (step_of_idle hidle).trans (hostMove_of_preload hhost hfits)
  exact ⟨_, hstep, fun _ hk => preload_readMem_of_lt hk _, fun _ hk => preload_readMem_of_le hk _,
    rfl, rfl, rfl, rfl, rfl, rfl, rfl, rfl, rfl, rfl⟩

end Sys2Proof.Machine
end

section
/-! The encoder and the decoder are inverse to each other on a legal configuration (30_encoding.md R60 to R68). -/

namespace Sys2Proof

/-- Every instruction's operand bytes have its format's length and are read back as it (30_encoding.md R61). -/
theorem Instr.operandBytes_shape (i : Instr) : Laws.Shape.Statement i := by
  cases i with
  | ldi r v => exact Laws.Shape.ldi r v
  | ld a b => exact Laws.Shape.ld a b
  | st a b => exact Laws.Shape.st a b
  | prn r => exact Laws.Shape.prn r
  | pra r => exact Laws.Shape.pra r
  | push r => exact Laws.Shape.push r
  | pop r => exact Laws.Shape.pop r
  | call r => exact Laws.Shape.call r
  | ret => exact Laws.Shape.ret
  | jmp r => exact Laws.Shape.jmp r
  | jeq r => exact Laws.Shape.jeq r
  | jne r => exact Laws.Shape.jne r
  | add a b => exact Laws.Shape.add a b
  | sub a b => exact Laws.Shape.sub a b
  | mul a b => exact Laws.Shape.mul a b
  | mod a b => exact Laws.Shape.mod a b
  | cmp a b => exact Laws.Shape.cmp a b
  | bitNot r => exact Laws.Shape.bitNot r
  | inc r => exact Laws.Shape.inc r
  | dec r => exact Laws.Shape.dec r
  | addi r v => exact Laws.Shape.addi r v
  | iret => exact Laws.Shape.iret
  | hlt => exact Laws.Shape.hlt
  | bitAnd a b => exact Laws.Shape.bitAnd a b
  | bitOr a b => exact Laws.Shape.bitOr a b
  | bitXor a b => exact Laws.Shape.bitXor a b
  | shl a b => exact Laws.Shape.shl a b
  | shr a b => exact Laws.Shape.shr a b

theorem encode_of_opcodeOf {c : Config} {i : Instr} {b : Byte} (h : opcodeOf c i.op = some b) :
    encode c i = some (b :: i.operandBytes) := by
  rw [encode, h, Option.map_some]

theorem decode_of_lookup {c : Config} {b : Byte} {op : Op} (h : lookup c b = some op) (rest : List Byte) :
    decode c (b :: rest) = decodeOperands op rest := by
  rw [decode, h]

/-- Bytes that decode begin with an assigned opcode, and its operands are read from the rest. -/
theorem decode_ok_cases {c : Config} {bytes rest : List Byte} {i : Instr} (h : decode c bytes = .ok (i, rest)) :
    ∃ b tail op, bytes = b :: tail ∧ lookup c b = some op ∧ decodeOperands op tail = .ok (i, rest) := by
  cases bytes with
  | nil => cases h
  | cons b tail =>
    cases hop : lookup c b with
    | none => rw [decode, hop] at h; cases h
    | some op => exact ⟨b, tail, op, rfl, hop, by rwa [decode_of_lookup hop] at h⟩

/-- A byte with a row of the map selects it only where the row is dispatched; ADDI has its own byte. -/
theorem lookup_some_cases {c : Config} {b : Byte} {op : Op} (h : lookup c b = some op) :
    (b = c.opcAddi ∧ op = .addi) ∨ ((b, op) ∈ c.opcodeMap ∧ c.dispatches op = true) := by
  unfold lookup at h
  split at h
  case isTrue hb => exact .inl ⟨hb, (Option.some.inj h).symm⟩
  case isFalse =>
    split at h
    case h_1 => cases h
    case h_2 op' hrow =>
      split at h
      case isTrue hd =>
        obtain rfl := Option.some.inj h
        exact .inr ⟨mem_of_lookup hrow, hd⟩
      case isFalse => cases h

/-- In a legal configuration a byte that selects a handler is that handler's opcode byte. -/
theorem opcodeOf_of_lookup {c : Config} (hc : c.wf = true) {b : Byte} {op : Op} (h : lookup c b = some op) :
    opcodeOf c op = some b := by
  obtain ⟨-, hnodup, -, haddi, -⟩ := Config.wf_parts hc
  rcases lookup_some_cases h with ⟨rfl, rfl⟩ | ⟨hmem, hd⟩
  · rw [opcodeOf, if_pos rfl]
  · have hne : op ≠ .addi := by
      rintro rfl
      exact haddi (List.mem_map_of_mem (f := Prod.snd) hmem)
    rw [opcodeOf, if_neg hne, if_pos hd, find_of_mem hnodup hmem, Option.map_some]

/-- Settles O3: the handler's opcode byte selects the handler, and the operand bytes are read back as the
instruction. -/
theorem decodeOfEncodeIsTheInstruction : Obligations.DecodeOfEncodeIsTheInstruction := by
  unfold Obligations.DecodeOfEncodeIsTheInstruction
  intro c i hc hi
  obtain ⟨-, hd⟩ : i.registersLegal = true ∧ c.dispatches i.op = true := by
    rwa [Instr.WellFormed, Bool.and_eq_true] at hi
  obtain ⟨b, hb, hlookup⟩ := opcodeOf_lookup hc hd
  obtain ⟨hlength, hread⟩ := i.operandBytes_shape
  refine ⟨b :: i.operandBytes, encode_of_opcodeOf hb, ?_, fun rest => ?_⟩
  · rw [List.length_cons, hlength, Nat.add_comm]
  · rw [List.cons_append, decode_of_lookup hlookup, hread]

/-- Settles O4: the first byte is its handler's opcode byte, and the operand bytes read are the instruction's. -/
theorem encodeOfDecodeIsTheBytes : Obligations.EncodeOfDecodeIsTheBytes := by
  unfold Obligations.EncodeOfDecodeIsTheBytes
  intro c bytes rest i hc h
  obtain ⟨b, tail, op, rfl, hlookup, hoperands⟩ := decode_ok_cases h
  obtain ⟨rfl, rfl⟩ := decodeOperands_inv hoperands
  exact ⟨b :: i.operandBytes, encode_of_opcodeOf (opcodeOf_of_lookup hc hlookup), rfl⟩

/-- Settles O1: each word is decoded by the table. -/
theorem specWordsDecodeToTheirInstructions : Obligations.SpecWordsDecodeToTheirInstructions := by
  unfold Obligations.SpecWordsDecodeToTheirInstructions
  exact ⟨rfl, rfl, rfl, rfl, rfl, rfl, rfl, rfl, rfl, rfl, rfl, rfl⟩

/-- Settles O2: the lookup is evaluated on every byte. -/
theorem unassignedOpcodeBytesAreCounted : Obligations.UnassignedOpcodeBytesAreCounted := by
  unfold Obligations.UnassignedOpcodeBytesAreCounted
  refine ⟨?_, ?_, ?_⟩
  · decide +kernel
  · decide +kernel
  · decide

end Sys2Proof
end

section
/-! The step by the run state, and the cycle of a Running block by what the check and the fetch answer
(40_dispatch.md R80, R81, 60_exceptions.md R209). -/

namespace Sys2Proof.Machine

theorem step_of_running {s : State} (h : s.status = .running) : step s = cycle s.nextDraw s.takeDraw := by
  rw [step, h]

theorem step_of_halted {s : State} (h : s.status = .halted) : step s = .fault .runHalted := by
  rw [step, h]

theorem step_of_failed {s : State} {e : FatalError} (h : s.status = .failed e) : step s = .fault (.runFailed e) := by
  rw [step, h]

theorem hostMove_of_no_move {s : State} (h : s.host = []) : hostMove s = .next s := by
  rw [hostMove, h]

theorem hostMove_of_start {s : State} {rest : List HostAction} (h : s.host = .start :: rest) :
    hostMove s = .next { s with status := .running, host := rest } := by
  rw [hostMove, h]

theorem hostMove_of_long_image {s : State} {image : List Byte} {rest : List HostAction}
    (h : s.host = .preload image :: rest) (hlong : 256 < image.length) :
    hostMove s = .refused (.imageTooLong image.length) := by
  rw [hostMove, h]
  exact if_pos hlong

@[simp] theorem poll_quiet (s : State) : poll Draw.quiet s = s := rfl

theorem interruptCheck_of_none {s : State} (h : dueInterrupt s = none) : interruptCheck s = .ok s := by
  rw [interruptCheck, h]

theorem interruptCheck_of_some {s : State} {i : RegIdx} (h : dueInterrupt s = some i) :
    interruptCheck s = deliver i s := by
  rw [interruptCheck, h]

theorem executeOne_of_decode {s : State} {i : Instr} {rest : List Byte}
    (h : decode s.config (fetchBytes s) = .ok (i, rest)) : executeOne s = exec i s :=
  executeOne_of_fetched (by rw [fetchInstr, h])

/-- Settles O6: the cycle runs the state the check answers, which is the polled state where nothing is due. -/
theorem stepRunsTheDecodedInstruction : Obligations.StepRunsTheDecodedInstruction := by
  unfold Obligations.StepRunsTheDecodedInstruction
  intro s i rest hrunning
  have hrun : ∀ s1, interruptCheck (poll s.nextDraw s.takeDraw) = .ok s1 →
      decode s1.config (fetchBytes s1) = .ok (i, rest) → step s = exec i s1 := by
    intro s1 hcheck hdecode
    rw [step_of_running hrunning, cycle_of_check_ok hcheck, executeOne_of_decode hdecode]
  refine ⟨hrun, fun hquiet hdue hdecode => hrun s.takeDraw ?_ hdecode⟩
  rw [hquiet, poll_quiet]
  exact interruptCheck_of_none hdue

/-- Settles O7: where an interrupt is due the check is its delivery, and the cycle goes on or ends with it. -/
theorem deliveryAndHandlerInstructionShareACycle : Obligations.DeliveryAndHandlerInstructionShareACycle := by
  unfold Obligations.DeliveryAndHandlerInstructionShareACycle
  intro s i hrunning hdue
  rw [step_of_running hrunning, ← interruptCheck_of_some hdue]
  exact ⟨fun _ => cycle_of_check_ok, fun _ => cycle_of_check_error⟩

/-- Settles O9: by the run state. -/
theorem terminalStatesHaveNoNextState : Obligations.TerminalStatesHaveNoNextState := by
  unfold Obligations.TerminalStatesHaveNoNextState
  intro s
  exact ⟨step_of_halted, fun _ => step_of_failed⟩

/-- Settles O13: the step of an Idle block is the host's move, by the first move pending. -/
theorem startMovesIdleToRunning : Obligations.StartMovesIdleToRunning := by
  unfold Obligations.StartMovesIdleToRunning
  intro s hidle
  rw [step_of_idle hidle]
  exact ⟨hostMove_of_no_move, fun _ => hostMove_of_start, fun _ _ => hostMove_of_long_image⟩

end Sys2Proof.Machine
end

section
/-! The values after reset (10_state.md R32) and the write of one register (R20, R22). -/

namespace Sys2Proof.Machine

theorem reset_reg (r : RegIdx) : State.reset.reg r = if r = SP then 0xF4 else 0 := by
  revert r
  decide

/-- Settles O11: the registers one by one, memory as the empty list, every other field by its value. -/
theorem resetHoldsTheStatedValues : Obligations.ResetHoldsTheStatedValues := by
  unfold Obligations.ResetHoldsTheStatedValues
  exact ⟨reset_reg, rfl, rfl, fun _ => rfl, rfl, rfl, rfl⟩

/-- Settles O15: by the frame of a register write. -/
theorem registerWriteChangesOneRegister : Obligations.RegisterWriteChangesOneRegister := by
  unfold Obligations.RegisterWriteChangesOneRegister
  intro s r v
  obtain ⟨hregs, hmem, hfl, -⟩ := s.setReg_frame r v
  exact ⟨s.reg_setReg_same r v, hregs, hmem, s.setReg_pc r v, hfl⟩

end Sys2Proof.Machine
end

section
/-! The invariant: legal parameters and canonical memory, after reset and after every step (log 6, log 26). -/

namespace Sys2Proof.Machine

theorem keptByBasics_inv : KeptByBasics State.Inv where
  reg _ _ _ hu := hu
  pc _ _ hu := hu
  fail _ _ hu := hu

/-- A write at an address that is a byte keeps the invariant; every address a cycle writes is one (20_memory.md R41). -/
theorem keptByWrite_inv : KeptByWrite State.Inv := by
  rintro u a v ⟨hconfig, hmem⟩
  exact ⟨hconfig, Memory.write_wf v hmem a.isLt⟩

theorem setLatch_inv {u : State} (v : Bool) (h : u.Inv) : (setLatch v u).Inv := by
  obtain ⟨hconfig, hmem⟩ := h
  exact ⟨(setLatch_config u v).symm ▸ hconfig, (setLatch_mem u v).symm ▸ hmem⟩

theorem cycle_inv {d : Draw} {s t : State} (hs : s.Inv) (h : cycle d s = .next t) : t.Inv :=
  cycle_keeps keptByBasics_inv keptByWrite_inv (hfl := fun _ _ hu => hu) (hout := fun _ _ _ hu => hu)
    (hhalt := fun _ hu => hu) (hlatch := fun _ v hu => setLatch_inv v hu) hs h

/-- The preload refuses an image that would run past address 255, so the canonical form is kept. -/
theorem hostMove_inv {s t : State} (hs : s.Inv) (h : hostMove s = .next t) : t.Inv := by
  obtain ⟨hconfig, hmem⟩ := hs
  rcases hostMove_cases h with ⟨-, rfl⟩ | ⟨image, rest, -, hfits, rfl⟩ | ⟨rest, -, rfl⟩
  · exact ⟨hconfig, hmem⟩
  · exact ⟨hconfig, Memory.writeFrom_wf 0 image hmem ((Nat.zero_add _).trans_le hfits)⟩
  · exact ⟨hconfig, hmem⟩

/-- Settles O43: a host move and a cycle each keep the invariant. -/
theorem stepKeepsTheInvariant : Obligations.StepKeepsTheInvariant := by
  unfold Obligations.StepKeepsTheInvariant
  intro s t hs h
  rcases step_cases h with ⟨-, hmove⟩ | ⟨-, hcycle⟩
  · exact hostMove_inv hs hmove
  · exact cycle_inv (s := s.takeDraw) hs hcycle

/-- Settles O44: the spec's parameters pass the check, and the empty memory is canonical. -/
theorem resetSatisfiesTheInvariant : Obligations.ResetSatisfiesTheInvariant := by
  unfold Obligations.ResetSatisfiesTheInvariant
  have hconfig : specConfig.wf = true := by decide
  exact ⟨hconfig, rfl⟩

end Sys2Proof.Machine
end

section
/-! The run state: a cycle never goes back to Idle, and only HLT halts (10_state.md R29, 45_system.md R191). -/

namespace Sys2Proof.Machine

/-- A status no fatal error gives is not entered by the updates that every instruction may make. -/
theorem keptByBasics_status_ne {st : Status} (h : ∀ e, Status.failed e ≠ st) : KeptByBasics fun u => u.status ≠ st where
  reg _ _ _ hu := hu
  pc _ _ hu := hu
  fail _ e _ := h e

theorem cycle_not_idle {d : Draw} {s t : State} (hs : s.status ≠ .idle) (h : cycle d s = .next t) :
    t.status ≠ .idle :=
  cycle_keeps (P := fun u => u.status ≠ .idle) (keptByBasics_status_ne fun _ => by simp)
    (w := fun _ _ _ hu => hu) (hfl := fun _ _ hu => hu) (hout := fun _ _ _ hu => hu)
    (hhalt := fun _ _ => by simp) (hlatch := fun u v hu => (setLatch_status u v).symm ▸ hu) (hs := hs) (h := h)

theorem exec_not_halted {i : Instr} {s t : State} (hi : i ≠ .hlt) (hs : s.status ≠ .halted)
    (h : exec i s = .next t) : t.status ≠ .halted :=
  exec_keeps (P := fun u => u.status ≠ .halted) (keptByBasics_status_ne fun _ => by simp) i
    (hfl := fun _ _ _ hu => hu) (hmem := fun _ _ _ _ hu => hu) (hout := fun _ _ _ _ hu => hu)
    (hhalt := fun hhlt => absurd hhlt hi) (hlatch := fun _ u v hu => (setLatch_status u v).symm ▸ hu)
    (hs := hs) (h := h)

/-- Settles O8: the step is a cycle, which answers a next state and does not enter Idle. -/
theorem runningCycleHasANextState : Obligations.RunningCycleHasANextState := by
  unfold Obligations.RunningCycleHasANextState
  intro s hrunning
  obtain ⟨t, ht⟩ := cycle_next s.nextDraw s.takeDraw
  have hnotIdle : s.takeDraw.status ≠ .idle := by simp [hrunning]
  exact ⟨t, (step_of_running hrunning).trans ht, cycle_not_idle hnotIdle ht⟩

/-- Settles O10: an instruction other than HLT does not enter Halted. -/
theorem onlyHaltInstructionHalts : Obligations.OnlyHaltInstructionHalts := by
  unfold Obligations.OnlyHaltInstructionHalts
  intro i s t hrunning h hhalted
  have hnotHalted : s.status ≠ .halted := by simp [hrunning]
  by_contra hi
  exact exec_not_halted hi hnotHalted h hhalted

/-- Settles O39: HLT writes status and does not advance. -/
theorem haltStopsTheLoop : Obligations.HaltStopsTheLoop := by
  unfold Obligations.HaltStopsTheLoop
  intro s
  rfl

end Sys2Proof.Machine
end

section
/-! Who writes FL (10_state.md R25). -/

namespace Sys2Proof.Machine

theorem keptByBasics_fl (Q : Byte → Prop) : KeptByBasics fun u => Q u.fl where
  reg _ _ _ hu := hu
  pc _ _ hu := hu
  fail _ _ hu := hu

theorem exec_fl_of_not_cmp_iret {i : Instr} {s t : State} (h : exec i s = .next t) (hcmp : ∀ a b, i ≠ .cmp a b)
    (hiret : i ≠ .iret) : t.fl = s.fl := by
  have hfl : (∃ a b, i = .cmp a b) ∨ i = .iret → ∀ (u : State) v, u.fl = s.fl → (u.setFl v).fl = s.fl := by
    rintro (⟨a, b, hi⟩ | hi)
    · exact absurd hi (hcmp a b)
    · exact absurd hi hiret
  exact exec_keeps (P := fun u => u.fl = s.fl) (keptByBasics_fl (· = s.fl)) i
    (hfl := hfl) (hmem := fun _ _ _ _ hu => hu) (hout := fun _ _ _ _ hu => hu) (hhalt := fun _ _ hu => hu)
    (hlatch := fun _ u v hu => (setLatch_fl u v).trans hu) (hs := rfl) (h := h)

theorem poll_fl (d : Draw) (s : State) : (poll d s).fl = s.fl := by
  obtain ⟨-, -, hfl, -⟩ := poll_frame d s
  exact hfl

theorem interruptCheck_fl {s t : State} (h : interruptCheck s = .ok t ∨ interruptCheck s = .error t) :
    t.fl = s.fl :=
  (interruptCheck_keeps (P := fun u => u.fl = s.fl) (keptByBasics_fl (· = s.fl))
    (w := fun _ _ _ hu => hu) (hlatch := fun u v hu => (setLatch_fl u v).trans hu) (hs := rfl)).of_eq h

/-- Settles O40: by the updates an instruction, a poll and a check are made of. -/
theorem onlyCompareAndInterruptReturnWriteFlags : Obligations.OnlyCompareAndInterruptReturnWriteFlags := by
  unfold Obligations.OnlyCompareAndInterruptReturnWriteFlags
  exact ⟨fun _ _ _ => exec_fl_of_not_cmp_iret, poll_fl, fun _ _ => interruptCheck_fl⟩

end Sys2Proof.Machine
end

section
/-! Who writes memory, and where (42_data_io.md R142, 43_stack.md R160). -/

namespace Sys2Proof.Machine

theorem keptByBasics_memSameBut (written : List Nat) (s : State) : KeptByBasics (MemSameBut written s) where
  reg _ _ _ hu := hu
  pc _ _ hu := hu
  fail _ _ hu := hu

theorem MemSameBut.refl (written : List Nat) (s : State) : MemSameBut written s s := fun _ _ => rfl

/-- A write at the listed address, on a state that has memory as `s` has it. -/
theorem memSameBut_writeMem {s u : State} {a : Nat} (v : Byte) (h : u.mem = s.mem) :
    MemSameBut [a] s (u.writeMem a v) := by
  intro b hb
  rw [State.readMem_writeMem_other u v (List.ne_of_not_mem_cons hb), State.readMem, h, State.readMem]

/-- A push writes the byte below SP, or nothing. -/
theorem push_memSameBut {s : State} (v : Byte) : Ends (MemSameBut [(s.reg SP).toNat - 1] s) (push v s) := by
  rcases push_cases v s with ⟨p, hp, h⟩ | ⟨-, h⟩ <;> rw [h]
  · obtain hp : p.toNat = (s.reg SP).toNat - 1 := by omega
    exact hp ▸ memSameBut_writeMem v rfl
  · exact MemSameBut.refl _ s

theorem exec_st_memSameBut {a b : Byte} {ra : RegIdx} {s t : State} (ha : Names a ra)
    (h : exec (.st a b) s = .next t) : MemSameBut [(s.reg ra).toNat] s t := by
  have k := keptByBasics_memSameBut [(s.reg ra).toNat] s
  have hs := MemSameBut.refl [(s.reg ra).toNat] s
  refine Ends.complete (x := regOperands a b s >>= _) ?_ h
  rcases regOperand_cases b s with ⟨rb, hb, -⟩ | ⟨-, hb⟩
  · rw [regOperands_names ha hb]
    change Ends _ (memWrite (s.reg ra).toNat (s.reg rb) s >>= _)
    rw [memWrite_byte]
    exact k.advance (memSameBut_writeMem _ rfl)
  · simp only [regOperands, regOperand_names ha, hb]
    exact k.fail s _ hs

theorem exec_push_memSameBut {r : Byte} {s t : State} (h : exec (.push r) s = .next t) :
    MemSameBut [(s.reg SP).toNat - 1] s t := by
  have k := keptByBasics_memSameBut [(s.reg SP).toNat - 1] s
  have hs := MemSameBut.refl [(s.reg SP).toNat - 1] s
  refine Ends.complete (k.regOperand hs fun rr => ?_) h
  rcases decSp_cases s with ⟨p, hp, hdec⟩ | ⟨-, hdec⟩ <;> rw [hdec]
  · change Ends _ (memWrite ((s.setReg SP p).reg SP).toNat ((s.setReg SP p).reg rr) (s.setReg SP p) >>= _)
    obtain hp : p.toNat = (s.reg SP).toNat - 1 := by omega
    rw [memWrite_byte, State.reg_setReg_same, hp]
    exact k.advance (memSameBut_writeMem _ rfl)
  · exact k.fail s _ hs

theorem exec_call_memSameBut {r : Byte} {s t : State} (h : exec (.call r) s = .next t) :
    MemSameBut [(s.reg SP).toNat - 1] s t := by
  have k := keptByBasics_memSameBut [(s.reg SP).toNat - 1] s
  have hs := MemSameBut.refl [(s.reg SP).toNat - 1] s
  refine Ends.complete (k.regOperand hs fun rr => ?_) h
  dsimp only
  split
  · exact k.fail s _ hs
  · exact (push_memSameBut _).bind fun u hu => k.pc u _ hu

theorem exec_memSameBut_nil {i : Instr} {s t : State} (h : exec i s = .next t) (hst : ∀ a b, i ≠ .st a b)
    (hpush : ∀ r, i ≠ .push r) (hcall : ∀ r, i ≠ .call r) : MemSameBut [] s t := by
  have hmem : (∃ a b, i = .st a b) ∨ (∃ r, i = .push r ∨ i = .call r) → KeptByWrite (MemSameBut [] s) := by
    rintro (⟨a, b, hi⟩ | ⟨r, hi | hi⟩)
    · exact absurd hi (hst a b)
    · exact absurd hi (hpush r)
    · exact absurd hi (hcall r)
  exact exec_keeps (keptByBasics_memSameBut [] s) i (hfl := fun _ _ _ hu => hu) (hmem := hmem)
    (hout := fun _ _ _ _ hu => hu) (hhalt := fun _ _ hu => hu)
    (hlatch := fun _ u v hu a ha => (setLatch_readMem u v a).trans (hu a ha)) (hs := MemSameBut.refl [] s) (h := h)

/-- Settles O41: the three instructions that write memory by their own address, the others by the updates they are
made of. -/
theorem onlyStoresPushesAndCallsWriteMemory : Obligations.OnlyStoresPushesAndCallsWriteMemory := by
  unfold Obligations.OnlyStoresPushesAndCallsWriteMemory
  intro i s t h
  refine ⟨?_, ?_, exec_memSameBut_nil h⟩
  · rintro a b rfl ra ha
    exact exec_st_memSameBut ha h
  · rintro r (rfl | rfl)
    · exact exec_push_memSameBut h
    · exact exec_call_memSameBut h

end Sys2Proof.Machine
end

section
/-! The check of the register operands comes before every effect (30_encoding.md R62, 40_dispatch.md R84; D10, D14). -/

namespace Sys2Proof.Machine

theorem complete_regOperand_illegal {r b : Byte} (h : [r].find? (fun x => decide (8 ≤ x.toNat)) = some b) (s : State)
    (f : RegIdx → Except State State) :
    complete (regOperand r s >>= f) = .next (s.fail (.outOfRange (.regIndex b.toNat))) := by
  obtain rfl : b = r := List.mem_singleton.1 (List.mem_of_find?_eq_some h)
  have hb : 8 ≤ b.toNat := by simpa using List.find?_some h
  rw [regOperand_bad (Nat.not_lt.mpr hb)]
  rfl

theorem regOperands_bind (x y : Byte) (s : State) (f : RegIdx × RegIdx → Except State State) :
    (regOperands x y s >>= f) = regOperand x s >>= fun rx => regOperand y s >>= fun ry => f (rx, ry) := by
  simp [regOperands, bind_assoc]

/-- Of two operands the first above 7 is reported: byte 1 where it is, else byte 2. -/
theorem complete_regOperands_illegal {x y b : Byte} (h : [x, y].find? (fun x => decide (8 ≤ x.toNat)) = some b)
    (s : State) (f : RegIdx × RegIdx → Except State State) :
    complete (regOperands x y s >>= f) = .next (s.fail (.outOfRange (.regIndex b.toNat))) := by
  rw [regOperands_bind]
  by_cases hx : x.toNat < 8
  · rw [List.find?_cons_of_neg (by simpa using hx)] at h
    rw [regOperand_ok hx]
    exact complete_regOperand_illegal h s _
  · obtain rfl : x = b := by simpa [Nat.not_lt.mp hx] using h
    rw [regOperand_bad hx]
    rfl

/-- Settles O17: every instruction with register operands begins with their check, one operand or two. -/
theorem registerOperandAboveSevenFails : Obligations.RegisterOperandAboveSevenFails := by
  unfold Obligations.RegisterOperandAboveSevenFails
  intro i s b h
  cases i with
  | ret => cases h
  | iret => cases h
  | hlt => cases h
  | ldi | prn | pra | push | pop | call | jmp | jeq | jne | bitNot | inc | dec | addi =>
    exact complete_regOperand_illegal h s _
  | ld | st | add | sub | mul | mod | cmp | bitAnd | bitOr | bitXor | shl | shr =>
    exact complete_regOperands_illegal h s _

end Sys2Proof.Machine
end

section
/-! The ALU results as numbers: the exact result modulo 256 (41_alu.md R100 to R114). -/

namespace Sys2Proof.Machine

theorem trunc8_natCast_toNat (n : Nat) : (trunc8 (n : Int)).toNat = n % 256 := by
  have h := trunc8_toNat n
  omega

theorem aluAdd_toNat (x y : Byte) : (aluAdd x y).toNat = (x.toNat + y.toNat) % 256 :=
  trunc8_natCast_toNat (x.toNat + y.toNat)

theorem aluSub_toNat (x y : Byte) : ((aluSub x y).toNat : Int) = ((x.toNat : Int) - y.toNat) % 256 :=
  trunc8_toNat _

theorem aluMul_toNat (x y : Byte) : (aluMul x y).toNat = (x.toNat * y.toNat) % 256 := by
  rw [aluMul, ← Int.natCast_mul, trunc8_natCast_toNat]

theorem aluMod_toNat (x y : Byte) : (aluMod x y).toNat = x.toNat % y.toNat := by
  have hle := Nat.mod_le x.toNat y.toNat
  rw [aluMod, trunc8_natCast_toNat, Nat.mod_eq_of_lt (hle.trans_lt x.isLt)]

theorem aluShl_toNat (x y : Byte) : (aluShl x y).toNat = (x.toNat * 2 ^ y.toNat) % 256 := by
  rw [aluShl, trunc8_natCast_toNat, Nat.shiftLeft_eq]

theorem aluShr_toNat (x y : Byte) : (aluShr x y).toNat = x.toNat / 2 ^ y.toNat := by
  have hle := Nat.div_le_self x.toNat (2 ^ y.toNat)
  rw [aluShr, trunc8_natCast_toNat, Nat.shiftRight_eq_div_pow, Nat.mod_eq_of_lt (hle.trans_lt x.isLt)]

theorem aluShl_of_eight_le {x y : Byte} (h : 8 ≤ y.toNat) : aluShl x y = 0 := by
  have hdvd : 256 ∣ x.toNat * 2 ^ y.toNat := (Nat.pow_dvd_pow 2 h).mul_left x.toNat
  apply BitVec.eq_of_toNat_eq
  rw [aluShl_toNat, Nat.mod_eq_zero_of_dvd hdvd]
  rfl

theorem aluShr_of_eight_le {x y : Byte} (h : 8 ≤ y.toNat) : aluShr x y = 0 := by
  have hlt : x.toNat < 2 ^ y.toNat := x.isLt.trans_le (Nat.pow_le_pow_right (by decide) h)
  apply BitVec.eq_of_toNat_eq
  rw [aluShr_toNat, Nat.div_eq_of_lt hlt]
  rfl

theorem trunc8_not_toNat (x : Byte) : (trunc8 (255 - (x.toNat : Int))).toNat = 255 - x.toNat := by
  have hx := x.isLt
  have h := trunc8_toNat (255 - (x.toNat : Int))
  omega

theorem trunc8_inc_toNat (x : Byte) : (trunc8 ((x.toNat : Int) + 1)).toNat = (x.toNat + 1) % 256 :=
  trunc8_natCast_toNat (x.toNat + 1)

theorem trunc8_dec_toNat (x : Byte) : (trunc8 ((x.toNat : Int) - 1)).toNat = (x.toNat + 255) % 256 := by
  have h := trunc8_toNat ((x.toNat : Int) - 1)
  omega

theorem compareFlags_less {x y : Byte} (h : x.toNat < y.toNat) : compareFlags x y = flLess :=
  if_pos h

theorem compareFlags_greater {x y : Byte} (h : y.toNat < x.toNat) : compareFlags x y = flGreater := by
  rw [compareFlags, if_neg (Nat.lt_asymm h), if_pos h]

theorem compareFlags_equal {x y : Byte} (h : x.toNat = y.toNat) : compareFlags x y = flEqual := by
  rw [compareFlags, h, if_neg (Nat.lt_irrefl _), if_neg (Nat.lt_irrefl _)]

end Sys2Proof.Machine
end

section
/-! What the instructions that end in the default advance do where the advance fits (40_dispatch.md R86): the ALU
(41_alu.md), data movement and the console (42_data_io.md). -/

namespace Sys2Proof.Machine

/-- The default advance completes and writes pc alone. -/
theorem complete_advance {n : Nat} {s : State} (h : s.pc.toNat + 1 + n ≤ 255) :
    ∃ p : Byte, p.toNat = s.pc.toNat + (1 + n) ∧ complete (advance n s) = .next (s.setPc p) := by
  rcases advance_cases n s with ⟨p, hp, hadv⟩ | ⟨hpast, -⟩
  · exact ⟨p, hp.trans (Nat.add_assoc _ _ _), by rw [hadv, complete_ok]⟩
  · omega

theorem complete_advance_past {n : Nat} {s : State} (h : 255 < s.pc.toNat + 1 + n) :
    complete (advance n s) = .next (s.fail (.outOfRange (.pc ((s.pc.toNat : Int) + 1 + n)))) := by
  rw [advance_past h, complete_error]

theorem State.setPc_frame (s : State) (p : Byte) : Frame [] [] s (s.setPc p) :=
  ⟨fun _ _ => rfl, fun _ _ => rfl, rfl, rfl, rfl, rfl, rfl, rfl, rfl, rfl⟩

theorem complete_advance_setReg {n : Nat} {s : State} (r : RegIdx) (v : Byte) (h : s.pc.toNat + 1 + n ≤ 255) :
    ∃ t, complete (advance n (s.setReg r v)) = .next t ∧ t.reg r = v ∧ Frame [r] [] s t ∧ Advanced (1 + n) s t := by
  obtain ⟨t, hadv, hrest⟩ := advance_setReg r v h
  exact ⟨t, by rw [hadv, complete_ok], hrest⟩

section
variable {a b : Byte} {ra rb : RegIdx} {s : State}

theorem complete_aluBinary (f : Byte → Byte → Byte) (ha : Names a ra) (hb : Names b rb) (hpc : s.pc.toNat + 3 ≤ 255) :
    ∃ t, complete (aluBinary f a b s) = .next t ∧ t.reg ra = f (s.reg ra) (s.reg rb) ∧ Frame [ra] [] s t ∧
      Advanced 3 s t := by
  rw [aluBinary_names f ha hb]
  exact complete_advance_setReg ra _ hpc

theorem complete_aluUnary (f : Byte → Byte) (ha : Names a ra) (hpc : s.pc.toNat + 2 ≤ 255) :
    ∃ t, complete (aluUnary f a s) = .next t ∧ t.reg ra = f (s.reg ra) ∧ Frame [ra] [] s t ∧ Advanced 2 s t := by
  rw [aluUnary_names f ha]
  exact complete_advance_setReg ra _ hpc

theorem exec_mod_names (ha : Names a ra) (hb : Names b rb) :
    exec (.mod a b) s =
      complete (if s.reg rb = 0 then raise (.divisionByZero rb) s else aluBinary aluMod a b s) := by
  rw [exec, execMod, regOperands_names ha hb]
  rfl

theorem exec_cmp_names (ha : Names a ra) (hb : Names b rb) :
    exec (.cmp a b) s = complete (advance 2 (s.setFl (compareFlags (s.reg ra) (s.reg rb)))) := by
  rw [exec, execCmp, regOperands_names ha hb]
  rfl

theorem exec_ldi_names (imm8 : Byte) (ha : Names a ra) :
    exec (.ldi a imm8) s = complete (advance 2 (s.setReg ra imm8)) := by
  rw [exec, execLdi, regOperand_names ha]
  rfl

theorem exec_addi_names (imm8 : Byte) (ha : Names a ra) :
    exec (.addi a imm8) s = complete (advance 2 (s.setReg ra (aluAdd (s.reg ra) imm8))) := by
  rw [exec, execAddi, regOperand_names ha]
  rfl

theorem exec_ld_names (ha : Names a ra) (hb : Names b rb) :
    exec (.ld a b) s = complete (advance 2 (s.setReg ra (s.readMem (s.reg rb).toNat))) := by
  rw [exec, execLd, regOperands_names ha hb]
  change complete (memRead (s.reg rb).toNat s >>= _) = _
  rw [memRead_byte]
  rfl

theorem exec_st_names (ha : Names a ra) (hb : Names b rb) :
    exec (.st a b) s = complete (advance 2 (s.writeMem (s.reg ra).toNat (s.reg rb))) := by
  rw [exec, execSt, regOperands_names ha hb]
  change complete (memWrite (s.reg ra).toNat (s.reg rb) s >>= _) = _
  rw [memWrite_byte]
  rfl

theorem exec_prn_names (ha : Names a ra) : exec (.prn a) s = complete (advance 1 (emit .prn (s.reg ra) s)) := by
  rw [exec, execPrn, regOperand_names ha]
  rfl

theorem exec_pra_names (ha : Names a ra) : exec (.pra a) s = complete (advance 1 (emit .pra (s.reg ra) s)) := by
  rw [exec, execPra, regOperand_names ha]
  rfl

theorem complete_advance_emit (kind : OutKind) (v : Byte) (hpc : s.pc.toNat + 2 ≤ 255) :
    ∃ t, complete (advance 1 (emit kind v s)) = .next t ∧ t.out = s.out ++ [⟨kind, v⟩] ∧ RegsSameBut [] s t ∧
      MemSameBut [] s t ∧ t.fl = s.fl ∧ ControlSame s t ∧ Advanced 2 s t := by
  obtain ⟨p, hp, h⟩ := complete_advance (n := 1) (s := emit kind v s) hpc
  have hcontrol : ControlSame s ((emit kind v s).setPc p) := ⟨rfl, rfl, rfl, rfl, rfl, rfl⟩
  exact ⟨_, h, rfl, fun _ _ => rfl, fun _ _ => rfl, rfl, hcontrol, hp⟩

end

/-- Settles O19: the exact results, narrowed to a byte, written to the destination. -/
theorem addSubMulWrapModulo256 : Obligations.AddSubMulWrapModulo256 := by
  unfold Obligations.AddSubMulWrapModulo256
  intro a b ra rb s ha hb hpc
  refine ⟨?_, ?_, ?_⟩
  · obtain ⟨t, h, hv, hframe⟩ := complete_aluBinary aluAdd ha hb hpc
    exact ⟨t, h, hv ▸ aluAdd_toNat _ _, hframe⟩
  · obtain ⟨t, h, hv, hframe⟩ := complete_aluBinary aluSub ha hb hpc
    exact ⟨t, h, hv ▸ aluSub_toNat _ _, hframe⟩
  · obtain ⟨t, h, hv, hframe⟩ := complete_aluBinary aluMul ha hb hpc
    exact ⟨t, h, hv ▸ aluMul_toNat _ _, hframe⟩

/-- Settles O20: the divisor is examined after the register check and before the write. -/
theorem modIsTheUnsignedRemainder : Obligations.ModIsTheUnsignedRemainder := by
  unfold Obligations.ModIsTheUnsignedRemainder
  intro a b ra rb s ha hb
  rw [exec_mod_names ha hb]
  constructor
  · intro hdivisor hpc
    obtain ⟨t, h, hv, hframe⟩ := complete_aluBinary aluMod ha hb hpc
    exact ⟨t, by rwa [if_neg hdivisor], hv ▸ aluMod_toNat _ _, hframe⟩
  · intro hzero
    rw [if_pos hzero, raise, complete_error]

/-- Settles O21: each bit of the result is that of the library's operation on bit vectors. -/
theorem bitwiseOperationsActBitByBit : Obligations.BitwiseOperationsActBitByBit := by
  unfold Obligations.BitwiseOperationsActBitByBit
  intro a b ra rb s ha hb hpc
  refine ⟨?_, ?_, ?_⟩
  · obtain ⟨t, h, hv, hframe⟩ := complete_aluBinary (fun x y => x &&& y) ha hb hpc
    exact ⟨t, h, fun _ _ => hv ▸ BitVec.getLsbD_and, hframe⟩
  · obtain ⟨t, h, hv, hframe⟩ := complete_aluBinary (fun x y => x ||| y) ha hb hpc
    exact ⟨t, h, fun _ _ => hv ▸ BitVec.getLsbD_or, hframe⟩
  · obtain ⟨t, h, hv, hframe⟩ := complete_aluBinary (fun x y => x ^^^ y) ha hb hpc
    exact ⟨t, h, fun _ _ => hv ▸ BitVec.getLsbD_xor, hframe⟩

/-- Settles O22: a shift is a product with or a quotient by a power of two, and from 8 up that power is at least 256. -/
theorem shiftsAreLogicalByTheWholeByte : Obligations.ShiftsAreLogicalByTheWholeByte := by
  unfold Obligations.ShiftsAreLogicalByTheWholeByte
  intro a b ra rb s ha hb hpc
  constructor
  · obtain ⟨t, h, hv, hframe⟩ := complete_aluBinary aluShl ha hb hpc
    exact ⟨t, h, hv ▸ aluShl_toNat _ _, fun h8 => hv.trans (aluShl_of_eight_le h8), hframe⟩
  · obtain ⟨t, h, hv, hframe⟩ := complete_aluBinary aluShr ha hb hpc
    exact ⟨t, h, hv ▸ aluShr_toNat _ _, fun h8 => hv.trans (aluShr_of_eight_le h8), hframe⟩

/-- Settles O23: FL is written whole, and the advance writes pc alone. -/
theorem compareSetsExactlyOneFlag : Obligations.CompareSetsExactlyOneFlag := by
  unfold Obligations.CompareSetsExactlyOneFlag
  intro a b ra rb s ha hb hpc
  rw [exec_cmp_names ha hb]
  obtain ⟨p, hp, h⟩ := complete_advance (n := 2) (s := s.setFl (compareFlags (s.reg ra) (s.reg rb))) hpc
  have hcontrol : ControlSame s ((s.setFl (compareFlags (s.reg ra) (s.reg rb))).setPc p) :=
    ⟨rfl, rfl, rfl, rfl, rfl, rfl⟩
  exact ⟨_, h, compareFlags_less, compareFlags_greater, compareFlags_equal, fun _ _ => rfl, fun _ _ => rfl, rfl,
    hcontrol, hp⟩

/-- Settles O24: the exact results, narrowed to a byte, written in place. -/
theorem unaryOperationsActInPlace : Obligations.UnaryOperationsActInPlace := by
  unfold Obligations.UnaryOperationsActInPlace
  intro r rr s hr hpc
  refine ⟨?_, ?_, ?_⟩
  · obtain ⟨t, h, hv, hframe⟩ := complete_aluUnary (fun x => trunc8 (255 - (x.toNat : Int))) hr hpc
    exact ⟨t, h, hv ▸ trunc8_not_toNat _, hframe⟩
  · obtain ⟨t, h, hv, hframe⟩ := complete_aluUnary (fun x => trunc8 ((x.toNat : Int) + 1)) hr hpc
    exact ⟨t, h, hv ▸ trunc8_inc_toNat _, hframe⟩
  · obtain ⟨t, h, hv, hframe⟩ := complete_aluUnary (fun x => trunc8 ((x.toNat : Int) - 1)) hr hpc
    exact ⟨t, h, hv ▸ trunc8_dec_toNat _, hframe⟩

/-- Settles O25: LDI writes the immediate as it is, ADDI its sum with the register. -/
theorem immediateIsTheWholeByte : Obligations.ImmediateIsTheWholeByte := by
  unfold Obligations.ImmediateIsTheWholeByte
  intro r imm8 rr s hr hpc
  rw [exec_ldi_names imm8 hr, exec_addi_names imm8 hr]
  constructor
  · exact complete_advance_setReg rr imm8 hpc
  · obtain ⟨t, h, hv, hframe⟩ := complete_advance_setReg (n := 2) rr (aluAdd (s.reg rr) imm8) hpc
    exact ⟨t, h, hv ▸ aluAdd_toNat _ _, hframe⟩

/-- Settles O26: the address is a byte, so the read cannot fault. -/
theorem loadReadsTheAddressedByte : Obligations.LoadReadsTheAddressedByte := by
  unfold Obligations.LoadReadsTheAddressedByte
  intro a b ra rb s ha hb hpc
  rw [exec_ld_names ha hb]
  exact complete_advance_setReg ra _ hpc

/-- Settles O27: the address is a byte, so the write cannot fault, and it has the one-cell frame. -/
theorem storeWritesTheAddressedByte : Obligations.StoreWritesTheAddressedByte := by
  unfold Obligations.StoreWritesTheAddressedByte
  intro a b ra rb s ha hb hpc
  rw [exec_st_names ha hb]
  obtain ⟨p, hp, h⟩ := complete_advance (n := 2) (s := s.writeMem (s.reg ra).toNat (s.reg rb)) hpc
  exact ⟨_, h, s.readMem_writeMem_same _ _, s.writeMem_frame _ _, hp⟩

/-- Settles O28: both emit one record and advance. -/
theorem printAppendsOneRecord : Obligations.PrintAppendsOneRecord := by
  unfold Obligations.PrintAppendsOneRecord
  intro r rr s hr hpc
  rw [exec_prn_names hr, exec_pra_names hr]
  exact ⟨complete_advance_emit .prn _ hpc, complete_advance_emit .pra _ hpc⟩

end Sys2Proof.Machine
end

section
/-! The stack primitives, PUSH and POP (43_stack.md), and control transfer (44_control.md). -/

namespace Sys2Proof.Machine

section
variable {r : Byte} {rr : RegIdx} {s : State}

/-! ## The stack primitives by where SP stands -/

theorem push_of_pos (v : Byte) (h : 1 ≤ (s.reg SP).toNat) :
    ∃ p : Byte, p.toNat + 1 = (s.reg SP).toNat ∧ push v s = .ok ((s.setReg SP p).writeMem p.toNat v) :=
  (push_cases v s).resolve_right fun hzero => by omega

theorem push_of_zero (v : Byte) (h : (s.reg SP).toNat = 0) : push v s = .error (s.fail (.outOfRange (.sp (-1)))) := by
  rcases push_cases v s with ⟨p, hp, -⟩ | ⟨-, hpush⟩
  · omega
  · exact hpush

theorem pop_of_below_top (h : (s.reg SP).toNat ≤ 254) :
    ∃ p : Byte, p.toNat = (s.reg SP).toNat + 1 ∧ pop s = .ok (s.readMem (s.reg SP).toNat, s.setReg SP p) :=
  (pop_cases s).resolve_right fun htop => by omega

theorem pop_of_top (h : (s.reg SP).toNat = 255) : pop s = .error (s.fail (.outOfRange (.sp 256))) := by
  rcases pop_cases s with ⟨p, hp, -⟩ | ⟨-, hpop⟩
  · have hlt := p.isLt
    omega
  · exact hpop

/-! ## What each instruction does on a legal operand -/

/-- PUSH lowers SP, stores the register as it is then, and advances; or it fails with nothing written (43_stack.md
R162). -/
theorem exec_push_cases (hr : Names r rr) (s : State) :
    (∃ p : Byte, p.toNat + 1 = (s.reg SP).toNat ∧ exec (.push r) s =
        complete (advance 1 ((s.setReg SP p).writeMem p.toNat ((s.setReg SP p).reg rr)))) ∨
      ((s.reg SP).toNat = 0 ∧ exec (.push r) s = .next (s.fail (.outOfRange (.sp (-1))))) := by
  rw [exec, execPush, regOperand_names hr]
  rcases decSp_cases s with ⟨p, hp, hdec⟩ | ⟨h0, hdec⟩
  · refine .inl ⟨p, hp, ?_⟩
    change complete (decSp s >>= fun u => memWrite (u.reg SP).toNat (u.reg rr) u >>= fun u => advance 1 u) = _
    rw [hdec]
    change complete (memWrite ((s.setReg SP p).reg SP).toNat _ _ >>= _) = _
    rw [memWrite_byte, State.reg_setReg_same]
    rfl
  · refine .inr ⟨h0, ?_⟩
    change complete (decSp s >>= _) = _
    rw [hdec]
    rfl

/-- The byte at SP written to a register, SP not yet raised: for R7 the byte is what will be raised (D11). -/
abbrev popInto (rr : RegIdx) (s : State) : State := s.setReg rr (s.readMem (s.reg SP).toNat)

/-- POP writes the byte at SP to the register, raises SP as it is then, and advances; or SP would pass 255
(43_stack.md R163). -/
theorem exec_pop_cases (hr : Names r rr) (s : State) :
    (∃ p : Byte, p.toNat = ((popInto rr s).reg SP).toNat + 1 ∧ exec (.pop r) s =
        complete (advance 1 ((popInto rr s).setReg SP p))) ∨
      (((popInto rr s).reg SP).toNat = 255 ∧ exec (.pop r) s =
        .next ((popInto rr s).fail (.outOfRange (.sp 256)))) := by
  have hexec : exec (.pop r) s =
      complete (incSp (popInto rr s) >>= fun u => advance 1 u) := by
    rw [exec, execPop, regOperand_names hr]
    change complete (memRead (s.reg SP).toNat s >>= _) = _
    rw [memRead_byte]
    rfl
  rw [hexec]
  rcases incSp_cases (popInto rr s) with ⟨p, hp, hinc⟩ | ⟨h255, hinc⟩
  · exact .inl ⟨p, hp, by rw [hinc]; rfl⟩
  · exact .inr ⟨h255, by rw [hinc]; rfl⟩

/-- CALL checks the return address, pushes it, and reads its target after the push (44_control.md R170). -/
theorem exec_call_names (hr : Names r rr) (s : State) :
    exec (.call r) s = complete (if (255 : Int) < (s.pc.toNat : Int) + 2
      then raise (.outOfRange (.pc ((s.pc.toNat : Int) + 2))) s
      else push (trunc8 ((s.pc.toNat : Int) + 2)) s >>= fun u => .ok (u.setPc (u.reg rr))) := by
  rw [exec, execCall, regOperand_names hr]
  rfl

theorem exec_jmp_names (hr : Names r rr) (s : State) : exec (.jmp r) s = .next (s.setPc (s.reg rr)) := by
  rw [exec, execJmp, regOperand_names hr]
  rfl

theorem exec_jeq_names (hr : Names r rr) (s : State) :
    exec (.jeq r) s = complete (if s.equalFlag then .ok (s.setPc (s.reg rr)) else advance 1 s) := by
  rw [exec, execJeq, regOperand_names hr]
  rfl

theorem exec_jne_names (hr : Names r rr) (s : State) :
    exec (.jne r) s = complete (if s.equalFlag then advance 1 s else .ok (s.setPc (s.reg rr))) := by
  rw [exec, execJne, regOperand_names hr]
  rfl

/-! ## Frames -/

theorem setReg_writeMem_frame (s : State) (q : RegIdx) (p : Byte) (a : Nat) (v : Byte) :
    Frame [q] [a] s ((s.setReg q p).writeMem a v) :=
  ((s.setReg_frame q p).mono (by simp) (by simp)).trans ((State.writeMem_frame _ a v).mono (by simp) (by simp))

/-- A register of the frame that holds again what it held is left out of it. -/
theorem Frame.restore_reg {q : RegIdx} {regs : List RegIdx} {mem : List Nat} {t : State} (h : Frame (q :: regs) mem s t)
    (hq : t.reg q = s.reg q) : Frame regs mem s t := by
  obtain ⟨hregs, hrest⟩ := h
  refine ⟨fun x hx => ?_, hrest⟩
  by_cases hxq : x = q
  · exact hxq ▸ hq
  · exact hregs x (List.not_mem_cons_of_ne_of_not_mem hxq hx)

theorem Advanced.trans {m n : Nat} {t u : State} (h : Advanced m s t) (h' : Advanced n t u) : Advanced (m + n) s u := by
  unfold Advanced at *
  omega

/-! ## PUSH and POP -/

theorem exec_push_completes (hr : Names r rr) (hsp : 1 ≤ (s.reg SP).toNat) (hpc : s.pc.toNat + 2 ≤ 255) :
    ∃ t, exec (.push r) s = .next t ∧ (t.reg SP).toNat = (s.reg SP).toNat - 1 ∧
      t.readMem ((s.reg SP).toNat - 1) = (if rr = SP then t.reg SP else s.reg rr) ∧
      Frame [SP] [(s.reg SP).toNat - 1] s t ∧ Advanced 2 s t := by
  rcases exec_push_cases hr s with ⟨p, hp, hexec⟩ | ⟨h0, -⟩
  · obtain ⟨q, hq, hadv⟩ := complete_advance (n := 1)
      (s := (s.setReg SP p).writeMem p.toNat ((s.setReg SP p).reg rr)) hpc
    have hbelow : (s.reg SP).toNat - 1 = p.toNat := by omega
    rw [hbelow]
    refine ⟨_, hexec.trans hadv, by simp, ?_, setReg_writeMem_frame s SP p p.toNat _, hq⟩
    simp [State.reg_setReg, eq_comm]
  · omega

theorem exec_pop_completes (hr : Names r rr)
    (hsp : ((popInto rr s).reg SP).toNat ≤ 254) (hpc : s.pc.toNat + 2 ≤ 255) :
    ∃ t, exec (.pop r) s = .next t ∧ (rr ≠ SP → t.reg rr = s.readMem (s.reg SP).toNat) ∧
      (t.reg SP).toNat = ((popInto rr s).reg SP).toNat + 1 ∧
      Frame [rr, SP] [] s t ∧ Advanced 2 s t := by
  rcases exec_pop_cases hr s with ⟨p, hp, hexec⟩ | ⟨h255, -⟩
  · obtain ⟨q, hq, hadv⟩ := complete_advance (n := 1)
      (s := (popInto rr s).setReg SP p) hpc
    have hframe : Frame [rr, SP] [] s ((popInto rr s).setReg SP p) :=
      ((s.setReg_frame rr _).mono (by simp) (by simp)).trans ((State.setReg_frame _ SP p).mono (by simp) (by simp))
    refine ⟨_, hexec.trans hadv, fun hne => ?_, by simpa using hp, hframe, hq⟩
    rw [State.setPc_reg, State.reg_setReg_other _ p hne, State.reg_setReg_same]
  · omega

theorem exec_pop_fails (hr : Names r rr) (hsp : ((popInto rr s).reg SP).toNat = 255) :
    Fails (exec (.pop r) s) (.outOfRange (.sp 256)) := by
  rcases exec_pop_cases hr s with ⟨p, hp, -⟩ | ⟨-, hexec⟩
  · have := p.isLt
    omega
  · exact ⟨_, hexec, rfl⟩

/-! ## CALL and RET -/

theorem exec_call_completes (hr : Names r rr) (hpc : s.pc.toNat + 2 ≤ 255) (hsp : 1 ≤ (s.reg SP).toNat) :
    ∃ t, exec (.call r) s = .next t ∧ (t.readMem ((s.reg SP).toNat - 1)).toNat = s.pc.toNat + 2 ∧
      (t.reg SP).toNat = (s.reg SP).toNat - 1 ∧ t.pc = (if rr = SP then t.reg SP else s.reg rr) ∧
      Frame [SP] [(s.reg SP).toNat - 1] s t := by
  have hreturn : (trunc8 ((s.pc.toNat : Int) + 2)).toNat = s.pc.toNat + 2 := by
    have := trunc8_toNat_of_fits (v := (s.pc.toNat : Int) + 2) (by omega) (by omega)
    omega
  rw [exec_call_names hr, if_neg (by omega)]
  obtain ⟨p, hp, hpush⟩ := push_of_pos (trunc8 ((s.pc.toNat : Int) + 2)) hsp
  have hbelow : (s.reg SP).toNat - 1 = p.toNat := by omega
  rw [hpush, hbelow]
  refine ⟨_, rfl, by simpa using hreturn, by simp, ?_, setReg_writeMem_frame s SP p p.toNat _⟩
  simp [State.reg_setReg, eq_comm]

theorem exec_ret_eq (s : State) : exec .ret s = complete (pop s >>= fun vu => .ok (vu.2.setPc vu.1)) := rfl

theorem exec_ret_completes (hsp : (s.reg SP).toNat ≤ 254) :
    ∃ t, exec .ret s = .next t ∧ t.pc = s.readMem (s.reg SP).toNat ∧
      (t.reg SP).toNat = (s.reg SP).toNat + 1 ∧ Frame [SP] [] s t := by
  rw [exec_ret_eq]
  obtain ⟨p, hp, hpop⟩ := pop_of_below_top hsp
  rw [hpop]
  exact ⟨_, rfl, rfl, by simpa using hp, s.setReg_frame SP p⟩

/-! ## Jumps -/

theorem complete_advance_one (hpc : s.pc.toNat + 2 ≤ 255) :
    ∃ t, complete (advance 1 s) = .next t ∧ Frame [] [] s t ∧ Advanced 2 s t := by
  obtain ⟨p, hp, hadv⟩ := complete_advance (n := 1) hpc
  exact ⟨_, hadv, s.setPc_frame p, hp⟩

theorem complete_advance_one_past (hpc : 255 < s.pc.toNat + 2) :
    complete (advance 1 s) = .next (s.fail (.outOfRange (.pc ((s.pc.toNat : Int) + 2)))) :=
  (complete_advance_past (n := 1) hpc).trans (by rw [Int.add_assoc]; rfl)

end

/-! ## The obligations -/

/-- Settles O30: SP above 0 goes down and the byte is stored there, SP = 0 fails before any write. -/
theorem pushStoresBelowTheStackPointer : Obligations.PushStoresBelowTheStackPointer := by
  unfold Obligations.PushStoresBelowTheStackPointer
  intro r rr s hr
  refine ⟨exec_push_completes hr, fun hzero => ?_⟩
  rcases exec_push_cases hr s with ⟨p, hp, -⟩ | ⟨-, hexec⟩
  · omega
  · exact hexec

/-- Settles O31: SP is read again after the register is written, so for R7 it is the popped byte that is raised. -/
theorem popReadsAtTheStackPointer : Obligations.PopReadsAtTheStackPointer := by
  unfold Obligations.PopReadsAtTheStackPointer
  intro r rr s hr
  have hother : rr ≠ SP → (popInto rr s).reg SP = s.reg SP := fun hne =>
    s.reg_setReg_other _ (Ne.symm hne)
  refine ⟨fun hne hsp hpc => ?_, ?_, fun hne hsp => ?_, ?_⟩
  · obtain ⟨t, h, hreg, hspt, hframe⟩ := exec_pop_completes hr (by rwa [hother hne]) hpc
    exact ⟨t, h, hreg hne, by rw [hspt, hother hne], hframe⟩
  · rintro rfl hbyte hpc
    obtain ⟨t, h, -, hspt, hframe, hadv⟩ := exec_pop_completes hr (by rwa [State.reg_setReg_same]) hpc
    exact ⟨t, h, by rw [hspt, State.reg_setReg_same], hframe.mono (by simp) (by simp), hadv⟩
  · exact exec_pop_fails hr (by rwa [hother hne])
  · rintro rfl hbyte
    exact exec_pop_fails hr (by rw [State.reg_setReg_same, hbyte]; rfl)

/-- Settles O32: the pop reads the byte the push stored and raises SP to where it was. -/
theorem stackPrimitivesPushAndPopOneByte : Obligations.StackPrimitivesPushAndPopOneByte := by
  unfold Obligations.StackPrimitivesPushAndPopOneByte
  intro s v
  refine ⟨fun hsp => ?_, push_of_zero v, pop_of_top⟩
  have hlt := (s.reg SP).isLt
  obtain ⟨p, hp, hpush⟩ := push_of_pos v hsp
  have hspt : ((s.setReg SP p).writeMem p.toNat v).reg SP = p := s.reg_setReg_same SP p
  obtain ⟨p', hp', hpop⟩ := pop_of_below_top (s := (s.setReg SP p).writeMem p.toNat v) (by rw [hspt]; omega)
  rw [hspt] at hp' hpop
  rw [State.readMem_writeMem_same] at hpop
  have hbelow : (s.reg SP).toNat - 1 = p.toNat := by omega
  have hrestored : p' = s.reg SP := BitVec.eq_of_toNat_eq (by omega)
  have hframe : Frame [SP] [p.toNat] s (((s.setReg SP p).writeMem p.toNat v).setReg SP p') :=
    (setReg_writeMem_frame s SP p p.toNat v).trans ((State.setReg_frame _ SP p').mono (by simp) (by simp))
  rw [hbelow]
  exact ⟨_, _, hpush, congrArg _ hspt, by rw [hspt, State.readMem_writeMem_same], hpop, rfl,
    hframe.restore_reg ((State.reg_setReg_same _ SP p').trans hrestored)⟩

/-- Settles O33: for every register, R7 included, the pop leaves SP one above where the push put it, and the register
reads the byte the push stored. -/
theorem pushThenPopLeavesTheRegisterUnchanged : Obligations.PushThenPopLeavesTheRegisterUnchanged := by
  unfold Obligations.PushThenPopLeavesTheRegisterUnchanged
  intro r rr s hr hsp hpc
  obtain ⟨t, hpush, hspt, hbyte, hframe, hadv⟩ := exec_push_completes hr hsp (by omega)
  rw [← hspt] at hbyte
  have hpopped : (popInto rr t).reg SP = t.reg SP := by
    rw [popInto, hbyte, State.reg_setReg]
    split <;> rfl
  have hpct : t.pc.toNat + 2 ≤ 255 := by
    unfold Advanced at hadv
    omega
  have hlt := (s.reg SP).isLt
  obtain ⟨u, hpop, hreg, hspu, hframe', hadv'⟩ := exec_pop_completes hr (s := t) (by rw [hpopped]; omega) hpct
  have hspEq : u.reg SP = s.reg SP := BitVec.eq_of_toNat_eq (by rw [hspu, hpopped]; omega)
  have hregEq : u.reg rr = s.reg rr := by
    by_cases hrr : rr = SP
    · exact hrr ▸ hspEq
    · rw [hreg hrr, hbyte, if_neg hrr]
  have hboth : Frame [rr, SP] [(s.reg SP).toNat - 1] s u :=
    (hframe.mono (by simp) (by simp)).trans (hframe'.mono (by simp) (by simp))
  exact ⟨t, u, hpush, hpop, (hboth.restore_reg hregEq).restore_reg hspEq, hadv.trans hadv'⟩

/-- Settles O34: the return address is checked first, then SP, and only then is anything pushed. -/
theorem callPushesTheReturnAddress : Obligations.CallPushesTheReturnAddress := by
  unfold Obligations.CallPushesTheReturnAddress
  intro r rr s hr
  refine ⟨exec_call_completes hr, fun hpast => ?_, fun hpc hzero => ?_⟩
  · rw [exec_call_names hr, if_pos (by omega), raise, complete_error]
  · rw [exec_call_names hr, if_neg (by omega)]
    rw [push_of_zero _ hzero]
    rfl

/-- Settles O35: the popped byte becomes pc after the one increment of SP. -/
theorem returnPopsTheProgramCounter : Obligations.ReturnPopsTheProgramCounter := by
  unfold Obligations.ReturnPopsTheProgramCounter
  intro s
  refine ⟨exec_ret_completes, fun htop => ?_⟩
  rw [exec_ret_eq, pop_of_top htop]
  rfl

/-- Settles O36: the byte at SP that RET pops is the return address CALL pushed. -/
theorem callThenReturnResumesAfterTheCall : Obligations.CallThenReturnResumesAfterTheCall := by
  unfold Obligations.CallThenReturnResumesAfterTheCall
  intro r s t u hr hpc hsp hcall hspu hbyte
  obtain ⟨t', hcall', hpushed, hspt, -, -⟩ := exec_call_completes (r := r) (rr := ⟨r.toNat, hr⟩) rfl hpc hsp
  obtain rfl : t' = t := Host.Outcome.next.inj (hcall'.symm.trans hcall)
  have hlt := (s.reg SP).isLt
  obtain ⟨v, hret, hpcv, hspv, hframe⟩ := exec_ret_completes (s := u) (by rw [hspu, hspt]; omega)
  refine ⟨v, hret, ?_, BitVec.eq_of_toNat_eq (by rw [hspv, hspu, hspt]; omega), hframe⟩
  rw [hpcv, hspu, hbyte, hspt, hpushed]

/-- Settles O37: JMP writes pc alone. -/
theorem jumpGoesToTheRegister : Obligations.JumpGoesToTheRegister := by
  unfold Obligations.JumpGoesToTheRegister
  intro r rr s hr
  exact ⟨_, exec_jmp_names hr s, rfl, s.setPc_frame _⟩

/-- Settles O38: bit 0 of FL picks the branch; the one not taken is the default advance of one operand. -/
theorem conditionalJumpsReadTheEqualFlag : Obligations.ConditionalJumpsReadTheEqualFlag := by
  unfold Obligations.ConditionalJumpsReadTheEqualFlag
  intro r rr s hr
  rw [exec_jeq_names hr, exec_jne_names hr, State.equalFlag]
  constructor
  · intro hset
    rw [if_pos hset, if_pos hset]
    exact ⟨⟨_, rfl, rfl, s.setPc_frame _⟩, complete_advance_one, complete_advance_one_past⟩
  · intro hclear
    rw [hclear, if_neg Bool.false_ne_true, if_neg Bool.false_ne_true]
    exact ⟨⟨_, rfl, rfl, s.setPc_frame _⟩, complete_advance_one, complete_advance_one_past⟩

end Sys2Proof.Machine
end

section
/-! A run of pushes, and a run of pops, as one operation each: what eight of them do is an induction, not eight
cases. -/

namespace Sys2Proof.Machine

/-- A byte read from a part of the state that a push does not write. -/
structure PushStable (read : State → Byte) : Prop where
  sp : ∀ s v, read (s.setReg SP v) = read s
  mem : ∀ s a v, read (s.writeMem a v) = read s

/-- Push the bytes read, first to last. -/
def pushAll : List (State → Byte) → State → Except State State
  | [], s => .ok s
  | read :: reads, s => push (read s) s >>= pushAll reads

/-- The `n` addresses from `lo` up. -/
abbrev addressesFrom (lo n : Nat) : List Nat := (List.range n).map (lo + ·)

theorem mem_addressesFrom {lo n a : Nat} : a ∈ addressesFrom lo n ↔ lo ≤ a ∧ a < lo + n := by
  simp only [List.mem_map, List.mem_range]
  constructor
  · rintro ⟨k, hk, rfl⟩
    omega
  · intro h
    exact ⟨a - lo, by omega, by omega⟩

/-- With room for all, the bytes lie below the old SP, the first one highest, and nothing else but SP is written. -/
theorem pushAll_completes {reads : List (State → Byte)} {s : State} (hreads : ∀ read ∈ reads, PushStable read)
    (hsp : reads.length ≤ (s.reg SP).toNat) :
    ∃ t, pushAll reads s = .ok t ∧ (t.reg SP).toNat = (s.reg SP).toNat - reads.length ∧
      (∀ k (h : k < reads.length), t.readMem ((s.reg SP).toNat - 1 - k) = reads[k] s) ∧
      Frame [SP] (addressesFrom ((s.reg SP).toNat - reads.length) reads.length) s t := by
  induction reads generalizing s with
  | nil => exact ⟨s, rfl, rfl, fun k h => absurd h k.not_lt_zero, Frame.refl _ _ s⟩
  | cons read reads ih =>
    rw [List.length_cons] at hsp
    obtain ⟨p, hp, hpush⟩ := push_of_pos (s := s) (read s) (by omega)
    have hspu : ((s.setReg SP p).writeMem p.toNat (read s)).reg SP = p := s.reg_setReg_same SP p
    have hframe := setReg_writeMem_frame s SP p p.toNat (read s)
    have hread := (s.setReg SP p).readMem_writeMem_same p.toNat (read s)
    have hstable : ∀ read' ∈ reads, read' ((s.setReg SP p).writeMem p.toNat (read s)) = read' s := fun read' h => by
      have hst := hreads read' (List.mem_cons_of_mem _ h)
      rw [hst.mem, hst.sp]
    generalize (s.setReg SP p).writeMem p.toNat (read s) = u at *
    obtain ⟨t, hall, hspt, hbytes, hframe'⟩ := ih (s := u) (fun read' h => hreads read' (List.mem_cons_of_mem _ h))
      (by rw [hspu]; omega)
    rw [hspu] at hspt hbytes hframe'
    refine ⟨t, by rw [pushAll, hpush]; exact hall, by rw [List.length_cons]; omega, fun k hk => ?_, ?_⟩
    · cases k with
      | zero =>
        obtain ⟨-, hmem, -⟩ := hframe'
        have hout : p.toNat ∉ addressesFrom (p.toNat - reads.length) reads.length := fun h => by
          have := mem_addressesFrom.1 h
          omega
        have hbelow : (s.reg SP).toNat - 1 - 0 = p.toNat := by omega
        rw [hbelow, hmem _ hout, hread]
        rfl
      | succ k =>
        have hk : k < reads.length := by simpa using hk
        have hbelow : (s.reg SP).toNat - 1 - (k + 1) = p.toNat - 1 - k := by omega
        rw [hbelow, hbytes k hk, hstable _ (List.getElem_mem hk)]
        rfl
    · rw [List.length_cons]
      refine (hframe.mono (by simp) fun a ha => ?_).trans (hframe'.mono (by simp) fun a ha => ?_)
      · obtain rfl : a = p.toNat := by simpa using ha
        exact mem_addressesFrom.2 (by omega)
      · have := mem_addressesFrom.1 ha
        exact mem_addressesFrom.2 (by omega)

/-- Without room for all, the push at SP = 0 raises. -/
theorem pushAll_fails {reads : List (State → Byte)} {s : State} (hsp : (s.reg SP).toNat < reads.length) :
    ∃ t, pushAll reads s = .error t ∧ t.status = .failed (.outOfRange (.sp (-1))) := by
  induction reads generalizing s with
  | nil => exact absurd hsp (Nat.not_lt_zero _)
  | cons read reads ih =>
    rw [List.length_cons] at hsp
    rw [pushAll]
    by_cases hzero : (s.reg SP).toNat = 0
    · rw [push_of_zero _ hzero]
      exact ⟨_, rfl, rfl⟩
    · obtain ⟨p, hp, hpush⟩ := push_of_pos (s := s) (read s) (by omega)
      rw [hpush]
      refine ih ?_
      rw [State.writeMem_reg, State.reg_setReg_same]
      omega

/-- A write to a part of the state that a pop neither reads nor writes. -/
structure PopStable (write : State → Byte → State) : Prop where
  setSp : ∀ s p v, write (s.setReg SP p) v = (write s v).setReg SP p
  sp : ∀ s v, (write s v).reg SP = s.reg SP
  mem : ∀ s v a, (write s v).readMem a = s.readMem a

/-- Pop a byte for each write, first to last. -/
def popAll : List (State → Byte → State) → State → Except State State
  | [], s => .ok s
  | write :: writes, s => pop s >>= fun vu => popAll writes (write vu.2 vu.1)

/-- The writes on the bytes from address `a` up, SP left alone. -/
def writeAll : List (State → Byte → State) → Nat → State → State
  | [], _, s => s
  | write :: writes, a, s => writeAll writes (a + 1) (write s (s.readMem a))

theorem writeAll_setSp {writes : List (State → Byte → State)} (hwrites : ∀ write ∈ writes, PopStable write) (a : Nat)
    (s : State) (p : Byte) : writeAll writes a (s.setReg SP p) = (writeAll writes a s).setReg SP p := by
  induction writes generalizing a s with
  | nil => rfl
  | cons write writes ih =>
    rw [writeAll, writeAll, State.setReg_readMem, (hwrites write List.mem_cons_self).setSp]
    exact ih (fun write' h => hwrites write' (List.mem_cons_of_mem _ h)) _ _

theorem State.setReg_reg_self (s : State) (r : RegIdx) : s.setReg r (s.reg r) = s := by
  simp [State.setReg, State.reg]

/-- With SP low enough for all, the writes get the bytes from SP up and SP passes them. -/
theorem popAll_completes {writes : List (State → Byte → State)} {s : State}
    (hwrites : ∀ write ∈ writes, PopStable write) (hsp : (s.reg SP).toNat + writes.length ≤ 255) :
    popAll writes s = .ok ((writeAll writes (s.reg SP).toNat s).setReg SP
      (BitVec.ofNat 8 ((s.reg SP).toNat + writes.length))) := by
  induction writes generalizing s with
  | nil =>
    have hself : BitVec.ofNat 8 ((s.reg SP).toNat + 0) = s.reg SP := by
      rw [Nat.add_zero, BitVec.ofNat_toNat, BitVec.setWidth_eq]
    rw [List.length_nil, hself, writeAll, State.setReg_reg_self, popAll]
  | cons write writes ih =>
    rw [List.length_cons] at hsp
    obtain ⟨p, hp, hpop⟩ := pop_of_below_top (s := s) (by omega)
    have hwrite := hwrites write List.mem_cons_self
    have hrest : ∀ write' ∈ writes, PopStable write' := fun write' h => hwrites write' (List.mem_cons_of_mem _ h)
    have hspu : (((write s (s.readMem (s.reg SP).toNat))).setReg SP p).reg SP = p := State.reg_setReg_same _ SP p
    rw [popAll, hpop]
    change popAll writes (write (s.setReg SP p) _) = _
    rw [hwrite.setSp, ih hrest (by rw [hspu]; omega), hspu, writeAll_setSp hrest, State.setReg_setReg, writeAll, hp,
      List.length_cons, Nat.add_right_comm, Nat.add_assoc]

/-- With too few bytes above SP, the pop at SP = 255 raises. -/
theorem popAll_fails {writes : List (State → Byte → State)} {s : State}
    (hwrites : ∀ write ∈ writes, PopStable write) (hsp : 255 < (s.reg SP).toNat + writes.length) :
    ∃ t, popAll writes s = .error t ∧ t.status = .failed (.outOfRange (.sp 256)) := by
  have hlt := (s.reg SP).isLt
  induction writes generalizing s with
  | nil =>
    rw [List.length_nil] at hsp
    omega
  | cons write writes ih =>
    rw [List.length_cons] at hsp
    rw [popAll]
    by_cases htop : (s.reg SP).toNat = 255
    · rw [pop_of_top htop]
      exact ⟨_, rfl, rfl⟩
    · obtain ⟨p, hp, hpop⟩ := pop_of_below_top (s := s) (by omega)
      have hspu : (write (s.setReg SP p) (s.readMem (s.reg SP).toNat)).reg SP = p := by
        rw [(hwrites write List.mem_cons_self).sp, State.reg_setReg_same]
      rw [hpop]
      exact ih (fun write' h => hwrites write' (List.mem_cons_of_mem _ h)) (by rw [hspu]; omega) (by rw [hspu]; omega)

end Sys2Proof.Machine
end

section
/-! The interrupt check, the delivery and the return from it (60_exceptions.md R207 to R213, 45_system.md R190). -/

namespace Sys2Proof.Machine

/-! ## Which interrupt is due -/

theorem lowestBit_eq_some {m : Byte} {i : RegIdx} (hi : m.getLsbD i.val = true)
    (hlow : ∀ j : RegIdx, j.val < i.val → m.getLsbD j.val = false) : lowestBit m = some i := by
  have hget : ∀ j : RegIdx, ([0, 1, 2, 3, 4, 5, 6, 7] : List RegIdx)[j.val] = j := by decide
  refine List.find?_eq_some_iff_getElem.2 ⟨hi, i.val, i.isLt, hget i, fun j hj => ?_⟩
  have hbit := hlow ⟨j, hj.trans i.isLt⟩ hj
  rw [hget ⟨j, hj.trans i.isLt⟩, hbit]
  rfl

theorem lowestBit_eq_none {m : Byte} (h : ∀ j : RegIdx, m.getLsbD j.val = false) : lowestBit m = none :=
  List.find?_eq_none.2 fun j _ => Bool.eq_false_iff.1 (h j)

theorem dueInterrupt_of_unlatched {s : State} (h : (s.config.nestedInterruptLatch && s.latch) = false) :
    dueInterrupt s = lowestBit (s.reg IM &&& s.reg IS) := by
  rw [dueInterrupt, h, if_neg Bool.false_ne_true]

theorem dueInterrupt_of_latched {s : State} (h : (s.config.nestedInterruptLatch && s.latch) = true) :
    dueInterrupt s = none :=
  if_pos h

/-- Settles O46: a bit of IM & IS is the conjunction of the two bits, and the search goes from bit 0 up. -/
theorem lowestEnabledPendingInterruptIsDelivered : Obligations.LowestEnabledPendingInterruptIsDelivered := by
  unfold Obligations.LowestEnabledPendingInterruptIsDelivered
  intro s
  refine ⟨fun i hunlatched hi hlow => interruptCheck_of_some ?_, fun hnone => interruptCheck_of_none ?_,
    fun hlatched => interruptCheck_of_none (dueInterrupt_of_latched hlatched)⟩
  · rw [dueInterrupt_of_unlatched hunlatched]
    exact lowestBit_eq_some (BitVec.getLsbD_and.trans hi) fun j hj => BitVec.getLsbD_and.trans (hlow j hj)
  · by_cases hlatch : (s.config.nestedInterruptLatch && s.latch) = true
    · exact dueInterrupt_of_latched hlatch
    · rw [dueInterrupt_of_unlatched (Bool.eq_false_iff.2 hlatch)]
      exact lowestBit_eq_none fun j => BitVec.getLsbD_and.trans (hnone j)

/-! ## The delivery as a run of pushes -/

/-- What a delivery pushes, in the order of 60_exceptions.md R208: pc, FL, then R5 down to R0 (D6). -/
def interruptFrame : List (State → Byte) :=
  [State.pc, State.fl, (State.reg · 5), (State.reg · 4), (State.reg · 3), (State.reg · 2), (State.reg · 1),
    (State.reg · 0)]

theorem deliver_eq (i : RegIdx) (s : State) : deliver i s = pushAll interruptFrame (clearPending i s) >>= fun u =>
    memRead (vectorAddress u.config i) u >>= fun v => .ok (setLatch true (u.setPc v)) := by
  simp only [deliver, pushAll, interruptFrame, bind_assoc]
  rfl

theorem pushStable_reg {r : RegIdx} (h : r ≠ SP) : PushStable (State.reg · r) where
  sp s v := s.reg_setReg_other v h
  mem _ _ _ := rfl

theorem interruptFrame_pushStable : ∀ read ∈ interruptFrame, PushStable read := by
  simp only [interruptFrame, List.forall_mem_cons, List.not_mem_nil, false_implies, implies_true, and_true]
  exact ⟨⟨fun _ _ => rfl, fun _ _ _ => rfl⟩, ⟨fun _ _ => rfl, fun _ _ _ => rfl⟩, pushStable_reg (by decide),
    pushStable_reg (by decide), pushStable_reg (by decide), pushStable_reg (by decide), pushStable_reg (by decide),
    pushStable_reg (by decide)⟩

/-- Register `r` is the byte at 7 - `r` of the frame in push order. -/
theorem interruptFrame_reg {r : RegIdx} (hr : r.val ≤ 5) (h : 7 - r.val < interruptFrame.length) (s : State) :
    interruptFrame[7 - r.val] s = s.reg r := by
  match r, hr with
  | 0, _ | 1, _ | 2, _ | 3, _ | 4, _ | 5, _ => rfl

@[simp] theorem clearPending_reg {i q : RegIdx} {s : State} (h : q ≠ IS) : (clearPending i s).reg q = s.reg q :=
  s.reg_setReg_other _ h

@[simp] theorem clearPending_config (i : RegIdx) (s : State) : (clearPending i s).config = s.config := rfl

theorem clearPending_frame (i : RegIdx) (s : State) : Frame [IS] [] s (clearPending i s) := s.setReg_frame IS _

theorem clearPending_bit (i k : RegIdx) (s : State) :
    ((clearPending i s).reg IS).getLsbD k.val = ((s.reg IS).getLsbD k.val && k != i) := by
  have hmask : ∀ i k : RegIdx, (trunc8 (255 - ((1 <<< i.val : Nat) : Int))).getLsbD k.val = (k != i) := by decide
  rw [clearPending, State.reg_setReg_same, BitVec.getLsbD_and, hmask]

/-- The vector slots stand at 0xF8 up, those of 2..7 where the parameter is the spec's (D5). -/
theorem vectorAddress_eq {c : Config} {i : RegIdx} (h : i.val < 2 ∨ c.highVectors = specConfig.highVectors) :
    vectorAddress c i = 0xF8 + i.val := by
  rcases h with h | h
  · match i, h with
    | 0, _ | 1, _ => rfl
  · have hspec : ∀ i : RegIdx, vectorAddress specConfig i = 0xF8 + i.val := by decide
    rw [← hspec i]
    unfold vectorAddress
    rw [h]

theorem setLatch_true_latch (s : State) : (setLatch true s).latch = (s.config.nestedInterruptLatch || s.latch) := by
  rw [setLatch_latch]
  cases s.config.nestedInterruptLatch <;> rfl

theorem setLatch_false_latch (s : State) : (setLatch false s).latch = (!s.config.nestedInterruptLatch && s.latch) := by
  rw [setLatch_latch]
  cases s.config.nestedInterruptLatch <;> rfl

/-- With room for the frame, a delivery is its eight pushes from the state with the IS bit cleared, then the vector and
the latch. -/
theorem deliver_completes (i : RegIdx) {s : State} (hsp : 8 ≤ (s.reg SP).toNat) :
    ∃ u, deliver i s = .ok (setLatch true (u.setPc (u.readMem (vectorAddress s.config i)))) ∧
      (u.reg SP).toNat = (s.reg SP).toNat - 8 ∧
      (∀ k (h : k < interruptFrame.length),
        u.readMem ((s.reg SP).toNat - 1 - k) = interruptFrame[k] (clearPending i s)) ∧
      u.reg IS = (clearPending i s).reg IS ∧ Frame [IS, SP] (addressesFrom ((s.reg SP).toNat - 8) 8) s u := by
  have hspc : (clearPending i s).reg SP = s.reg SP := clearPending_reg (by decide)
  obtain ⟨u, hpush, hspu, hbytes, hframe⟩ :=
    pushAll_completes (s := clearPending i s) interruptFrame_pushStable (by rw [hspc]; exact hsp)
  rw [hspc] at hspu hbytes hframe
  have ⟨hregs, _, _, _, _, _, hconfig, _⟩ := hframe
  refine ⟨u, ?_, hspu, hbytes, hregs IS (by decide), ?_⟩
  · obtain ⟨b, hb⟩ := vectorAddress_byte s.config i
    rw [deliver_eq, hpush]
    change memRead (vectorAddress u.config i) u >>= _ = _
    rw [hconfig.trans (clearPending_config i s), hb, memRead_byte]
    rfl
  · exact ((clearPending_frame i s).mono (by simp) (by simp)).trans (hframe.mono (by simp) (by simp [interruptFrame]))

/-- Settles O47: the frame is what the pushes leave below SP; the vector's byte and the latch touch nothing of it. -/
theorem deliveryPushesTheInterruptFrame : Obligations.DeliveryPushesTheInterruptFrame := by
  unfold Obligations.DeliveryPushesTheInterruptFrame
  intro s i hsp
  obtain ⟨u, hdeliver, hspu, hbytes, his, hregs, hmem, hfl, hout, hstatus, hlatch, hconfig, hhost, hdraws, hpolls⟩ :=
    deliver_completes i hsp
  simp only [MemSameBut, RegsSameBut, hdeliver, Except.ok.injEq, exists_eq_left', setLatch_reg, setLatch_readMem,
    setLatch_pc, setLatch_fl, setLatch_out, setLatch_status, setLatch_config, setLatch_host, setLatch_draws,
    setLatch_polls, setLatch_true_latch, State.setPc_reg, State.setPc_readMem, State.setPc_pc, State.setPc_fl,
    State.setPc_out, State.setPc_status, State.setPc_config, State.setPc_host, State.setPc_draws, State.setPc_polls,
    State.setPc_latch]
  refine ⟨hspu, hbytes 0 (by decide), hbytes 1 (by decide), fun r hr => ?_, fun k => ?_, fun hvector => ?_,
    hregs, hmem, hfl, hout, hstatus, hconfig, hhost, hdraws, hpolls, ?_⟩
  · have hlt : 7 - r.val < interruptFrame.length := by
      change 7 - r.val < 8
      omega
    have haddr : (s.reg SP).toNat - 8 + r.val = (s.reg SP).toNat - 1 - (7 - r.val) := by omega
    rw [haddr, hbytes _ hlt, interruptFrame_reg hr, clearPending_reg]
    rintro rfl
    exact absurd hr (by decide)
  · rw [his, clearPending_bit]
  · rw [vectorAddress_eq hvector]
  · rw [hconfig, hlatch]

theorem deliver_fails {s : State} (i : RegIdx) (hsp : (s.reg SP).toNat < 8) :
    ∃ t, deliver i s = .error t ∧ t.status = .failed (.outOfRange (.sp (-1))) := by
  obtain ⟨t, hpush, hstatus⟩ := pushAll_fails (reads := interruptFrame) (s := clearPending i s)
    (by rw [clearPending_reg (by decide)]; exact hsp)
  exact ⟨t, by rw [deliver_eq, hpush]; rfl, hstatus⟩

/-- Settles O48: the push that finds SP = 0 raises; the poll leaves SP, and a check that raises ends the cycle. -/
theorem deliveryWithoutRoomFails : Obligations.DeliveryWithoutRoomFails := by
  unfold Obligations.DeliveryWithoutRoomFails
  refine ⟨fun s i => deliver_fails i, fun s i hrunning hdue hsp => ?_⟩
  obtain ⟨hregs, -⟩ := poll_frame s.nextDraw s.takeDraw
  obtain ⟨t, hdeliver, hstatus⟩ := deliver_fails (s := poll s.nextDraw s.takeDraw) i
    (by rw [hregs SP (by decide)]; exact hsp)
  refine ⟨t, ?_, hstatus⟩
  rw [step_of_running hrunning, cycle_of_check_error ((interruptCheck_of_some hdue).trans hdeliver)]

/-! ## The return as a run of pops -/

/-- Where IRET puts what it pops, in the order of 45_system.md R190: R0 up to R5, FL, pc. -/
def interruptRestore : List (State → Byte → State) :=
  [(State.setReg · 0 ·), (State.setReg · 1 ·), (State.setReg · 2 ·), (State.setReg · 3 ·), (State.setReg · 4 ·),
    (State.setReg · 5 ·), State.setFl, State.setPc]

theorem exec_iret_eq (s : State) :
    exec .iret s = complete (popAll interruptRestore s >>= fun u => .ok (setLatch false u)) := by
  simp only [exec, execIret, returnFromInterrupt, popReg, popAll, interruptRestore, bind_assoc, pure_bind]
  rfl

theorem popStable_setReg {r : RegIdx} (h : r ≠ SP) : PopStable (State.setReg · r ·) where
  setSp s p v := by
    have hval : r.val ≠ SP.val := fun he => h (Fin.ext he)
    simp only [State.setReg]
    rw [Vector.set_comm _ _ (Ne.symm hval)]
  sp s v := s.reg_setReg_other v (Ne.symm h)
  mem _ _ _ := rfl

theorem interruptRestore_popStable : ∀ write ∈ interruptRestore, PopStable write := by
  simp only [interruptRestore, List.forall_mem_cons, List.not_mem_nil, false_implies, implies_true, and_true]
  exact ⟨popStable_setReg (by decide), popStable_setReg (by decide), popStable_setReg (by decide),
    popStable_setReg (by decide), popStable_setReg (by decide), popStable_setReg (by decide),
    ⟨fun _ _ _ => rfl, fun _ _ => rfl, fun _ _ _ => rfl⟩, ⟨fun _ _ _ => rfl, fun _ _ => rfl, fun _ _ _ => rfl⟩⟩

theorem writeAll_interruptRestore_reg (a : Nat) (s : State) {r : RegIdx} (hr : r.val ≤ 5) :
    (writeAll interruptRestore a s).reg r = s.readMem (a + r.val) := by
  match r, hr with
  | 0, _ | 1, _ | 2, _ | 3, _ | 4, _ | 5, _ => simp [writeAll, interruptRestore, State.reg_setReg]

theorem writeAll_interruptRestore_IS (a : Nat) (s : State) : (writeAll interruptRestore a s).reg IS = s.reg IS := by
  simp [writeAll, interruptRestore, State.reg_setReg, IS]

/-- Settles O49: the eight pops, each from the address one above the last, then the latch. -/
theorem interruptReturnPopsTheFrame : Obligations.InterruptReturnPopsTheFrame := by
  unfold Obligations.InterruptReturnPopsTheFrame
  intro s
  rw [exec_iret_eq]
  constructor
  · intro hsp
    rw [popAll_completes interruptRestore_popStable (by change (s.reg SP).toNat + 8 ≤ 255; omega)]
    refine ⟨_, rfl, ?_, fun r hr => ?_, ?_, setLatch_fl _ _, setLatch_pc _ _, fun a _ => setLatch_readMem _ _ a,
      setLatch_out _ _, setLatch_status _ _, setLatch_config _ _, setLatch_host _ _, setLatch_draws _ _,
      setLatch_polls _ _, setLatch_false_latch _⟩
    · rw [setLatch_reg, State.reg_setReg_same, BitVec.toNat_ofNat]
      exact Nat.mod_eq_of_lt (by change (s.reg SP).toNat + 8 < 2 ^ 8; omega)
    · have hne : r ≠ SP := by
        rintro rfl
        exact absurd hr (by decide)
      rw [setLatch_reg, State.reg_setReg_other _ _ hne, writeAll_interruptRestore_reg _ s hr]
    · rw [setLatch_reg, State.reg_setReg_other _ _ (by decide), writeAll_interruptRestore_IS]
  · intro hsp
    obtain ⟨t, hpop, hstatus⟩ := popAll_fails (s := s) interruptRestore_popStable
      (by change 255 < (s.reg SP).toNat + 8; omega)
    exact ⟨t, by rw [hpop]; rfl, hstatus⟩

/-- Settles O50: the frame the delivery pushed is the frame the return pops. -/
theorem deliveryThenInterruptReturnRestores : Obligations.DeliveryThenInterruptReturnRestores := by
  unfold Obligations.DeliveryThenInterruptReturnRestores
  intro s t u i hdeliver hspu hbytes
  have hlt := (s.reg SP).isLt
  have hroom : 8 ≤ (s.reg SP).toNat := by
    by_contra hno
    obtain ⟨t', hfail, -⟩ := deliver_fails i (Nat.not_le.mp hno)
    cases hfail.symm.trans hdeliver
  obtain ⟨t', hdeliver', hspt, hpc, hfl, hregs, hpending, -⟩ := deliveryPushesTheInterruptFrame s i hroom
  obtain rfl : t' = t := Except.ok.inj (hdeliver'.symm.trans hdeliver)
  obtain ⟨v, hiret, hspv, hregsv, hisv, hflv, hpcv, hmemv, -⟩ :=
    (interruptReturnPopsTheFrame u).1 (by rw [hspu, hspt]; omega)
  rw [hspu] at hspv hregsv hflv hpcv
  have hpcAddr : (t'.reg SP).toNat + 7 = (s.reg SP).toNat - 1 := by omega
  have hflAddr : (t'.reg SP).toNat + 6 = (s.reg SP).toNat - 2 := by omega
  refine ⟨v, hiret, ?_, ?_, fun r hr => ?_, BitVec.eq_of_toNat_eq (by omega), hisv, ?_, hmemv⟩
  · rw [hpcv, hbytes 7 (by decide), hpcAddr, hpc]
  · rw [hflv, hbytes 6 (by decide), hflAddr, hfl]
  · rw [hregsv r hr, hbytes r.val (by omega), hspt, hregs r hr]
  · rw [hpending i, bne_self_eq_false, Bool.and_false]

end Sys2Proof.Machine
end

section
/-! An instruction that does not own pc is its effect, then the default advance (40_dispatch.md R86); and its effect is
the same on two states that differ only in what it neither reads nor writes. -/

namespace Sys2Proof.Machine

/-! ## The effect of an instruction before its default advance -/

/-- A binary ALU operation without its advance. -/
def binaryEffect (f : Byte → Byte → Byte) (a b : Byte) (s : State) : Except State State :=
  regOperands a b s >>= fun r => .ok (s.setReg r.1 (f (s.reg r.1) (s.reg r.2)))

/-- A unary ALU operation without its advance. -/
def unaryEffect (f : Byte → Byte) (r : Byte) (s : State) : Except State State :=
  regOperand r s >>= fun r => .ok (s.setReg r (f (s.reg r)))

/-- What an instruction that does not own pc does before its default advance (`exec_eq_effect`); the others have their
whole meaning in `exec`. -/
def effect : Instr → State → Except State State
  | .ldi r imm8, s => regOperand r s >>= fun r => .ok (s.setReg r imm8)
  | .addi r imm8, s => unaryEffect (aluAdd · imm8) r s
  | .ld a b, s => regOperands a b s >>= fun r => .ok (s.setReg r.1 (s.readMem (s.reg r.2).toNat))
  | .st a b, s => regOperands a b s >>= fun r => .ok (s.writeMem (s.reg r.1).toNat (s.reg r.2))
  | .prn r, s => regOperand r s >>= fun r => .ok (emit .prn (s.reg r) s)
  | .pra r, s => regOperand r s >>= fun r => .ok (emit .pra (s.reg r) s)
  | .push r, s => regOperand r s >>= fun r => decSp s >>= fun u => .ok (u.writeMem (u.reg SP).toNat (u.reg r))
  | .pop r, s => regOperand r s >>= fun r => incSp (s.setReg r (s.readMem (s.reg SP).toNat))
  | .add a b, s => binaryEffect aluAdd a b s
  | .sub a b, s => binaryEffect aluSub a b s
  | .mul a b, s => binaryEffect aluMul a b s
  | .mod a b, s => regOperands a b s >>= fun r =>
      if s.reg r.2 = 0 then raise (.divisionByZero r.2) s else binaryEffect aluMod a b s
  | .cmp a b, s => regOperands a b s >>= fun r => .ok (s.setFl (compareFlags (s.reg r.1) (s.reg r.2)))
  | .bitAnd a b, s => binaryEffect (fun x y => x &&& y) a b s
  | .bitOr a b, s => binaryEffect (fun x y => x ||| y) a b s
  | .bitXor a b, s => binaryEffect (fun x y => x ^^^ y) a b s
  | .shl a b, s => binaryEffect aluShl a b s
  | .shr a b, s => binaryEffect aluShr a b s
  | .bitNot r, s => unaryEffect (fun x => trunc8 (255 - (x.toNat : Int))) r s
  | .inc r, s => unaryEffect (fun x => trunc8 ((x.toNat : Int) + 1)) r s
  | .dec r, s => unaryEffect (fun x => trunc8 ((x.toNat : Int) - 1)) r s
  | .call _, s | .ret, s | .jmp _, s | .jeq _, s | .jne _, s | .iret, s | .hlt, s => .ok s

theorem aluBinary_eq_effect (f : Byte → Byte → Byte) (a b : Byte) (s : State) :
    aluBinary f a b s = binaryEffect f a b s >>= advance 2 := by
  rw [binaryEffect, bind_assoc]
  rfl

theorem aluUnary_eq_effect (f : Byte → Byte) (r : Byte) (s : State) :
    aluUnary f r s = unaryEffect f r s >>= advance 1 := by
  rw [unaryEffect, bind_assoc]
  rfl

theorem exec_eq_effect {i : Instr} (h : i.op.ownsPc = false) (s : State) :
    exec i s = complete (effect i s >>= advance i.op.operandCount) := by
  cases i with
  | add | sub | mul | bitAnd | bitOr | bitXor | shl | shr => exact congrArg complete (aluBinary_eq_effect _ _ _ s)
  | bitNot | inc | dec => exact congrArg complete (aluUnary_eq_effect _ _ s)
  | ldi | prn | pra | cmp =>
    rw [effect, bind_assoc]
    rfl
  | addi =>
    rw [effect, unaryEffect, bind_assoc]
    rfl
  | ld | st =>
    simp only [exec, execLd, execSt, effect, bind_assoc, memRead_byte, memWrite_byte]
    rfl
  | push | pop =>
    simp only [exec, execPush, execPop, effect, bind_assoc, memRead_byte, memWrite_byte]
    rfl
  | mod a b =>
    rw [effect, bind_assoc]
    refine congrArg complete (bind_congr fun r => ?_)
    dsimp only
    split
    · rfl
    · exact aluBinary_eq_effect _ _ _ s
  | call | ret | jmp | jeq | jne | iret | hlt => cases h

/-! ## Changes of the state that an operation does not see -/

/-- The second end is the first with the change `g` made: both complete, or both fail with the same error. -/
inductive Mirrors (g : State → State) : Except State State → Except State State → Prop
  | ok (t : State) : Mirrors g (.ok t) (.ok (g t))
  | error (t : State) (e : FatalError) : Mirrors g (.error (t.fail e)) (.error ((g t).fail e))

theorem Mirrors.bind {g : State → State} {x y : Except State State} {f f' : State → Except State State}
    (h : Mirrors g x y) (hf : ∀ t, Mirrors g (f t) (f' (g t))) : Mirrors g (x >>= f) (y >>= f') := by
  cases h with
  | ok t => exact hf t
  | error t e => exact .error t e

theorem Mirrors.ite {g : State → State} {c : Prop} [Decidable c] {x x' y y' : Except State State}
    (h : Mirrors g x y) (h' : Mirrors g x' y') : Mirrors g (if c then x else x') (if c then y else y') := by
  split
  · exact h
  · exact h'

theorem Mirrors.ends {g : State → State} {x y : Except State State} (h : Mirrors g x y) :
    (∃ t, x = .ok t ∧ y = .ok (g t)) ∨ (∃ t e, x = .error (t.fail e) ∧ y = .error ((g t).fail e)) := by
  cases h with
  | ok t => exact .inl ⟨t, rfl, rfl⟩
  | error t e => exact .inr ⟨t, e, rfl, rfl⟩

/-- A change that registers, memory, FL and the output do not see. -/
structure Inert (g : State → State) : Prop where
  reg : ∀ s r, (g s).reg r = s.reg r
  readMem : ∀ s a, (g s).readMem a = s.readMem a
  setReg : ∀ s r v, (g s).setReg r v = g (s.setReg r v)
  writeMem : ∀ s a v, (g s).writeMem a v = g (s.writeMem a v)
  setFl : ∀ s v, (g s).setFl v = g (s.setFl v)
  emit : ∀ s k v, Machine.emit k v (g s) = g (Machine.emit k v s)

theorem pop_bind (s : State) (f : Byte × State → Except State State) :
    (pop s >>= f) = incSp s >>= fun u => f (s.readMem (s.reg SP).toNat, u) := by
  simp only [pop, memRead_byte, bind_assoc, pure_bind]
  rfl

theorem push_eq (v : Byte) (s : State) : push v s = decSp s >>= fun u => .ok (u.writeMem (u.reg SP).toNat v) := by
  simp only [push, memWrite_byte]

/-- The operand check sees the operand byte alone. -/
theorem mirrors_regOperand (g : State → State) (b : Byte) (s : State) {f f' : RegIdx → Except State State}
    (hf : ∀ r, Mirrors g (f r) (f' r)) : Mirrors g (regOperand b s >>= f) (regOperand b (g s) >>= f') := by
  by_cases h : b.toNat < 8
  · rw [regOperand_ok h, regOperand_ok h]
    exact hf _
  · rw [regOperand_bad h, regOperand_bad h]
    exact .error s _

theorem mirrors_regOperands (g : State → State) (a b : Byte) (s : State) {f f' : RegIdx × RegIdx → Except State State}
    (hf : ∀ r, Mirrors g (f r) (f' r)) : Mirrors g (regOperands a b s >>= f) (regOperands a b (g s) >>= f') := by
  rw [regOperands_bind, regOperands_bind]
  exact mirrors_regOperand g a s fun ra => mirrors_regOperand g b s fun rb => hf (ra, rb)

section
variable {g : State → State} (hg : Inert g) (s : State)
include hg

theorem Inert.decSp : Mirrors g (Machine.decSp s) (Machine.decSp (g s)) := by
  simp only [Machine.decSp, hg.reg, hg.setReg]
  exact .ite (.error s _) (.ok _)

theorem Inert.incSp : Mirrors g (Machine.incSp s) (Machine.incSp (g s)) := by
  simp only [Machine.incSp, hg.reg, hg.setReg]
  exact .ite (.error s _) (.ok _)

theorem Inert.push (v : Byte) : Mirrors g (Machine.push v s) (Machine.push v (g s)) := by
  rw [push_eq, push_eq]
  refine (hg.decSp s).bind fun u => ?_
  rw [hg.reg, hg.writeMem]
  exact .ok _

theorem Inert.pop {f f' : Byte × State → Except State State} (hf : ∀ v u, Mirrors g (f (v, u)) (f' (v, g u))) :
    Mirrors g (Machine.pop s >>= f) (Machine.pop (g s) >>= f') := by
  rw [pop_bind, pop_bind, hg.reg, hg.readMem]
  exact (hg.incSp s).bind fun u => hf _ u

theorem Inert.binaryEffect (f : Byte → Byte → Byte) (a b : Byte) :
    Mirrors g (Machine.binaryEffect f a b s) (Machine.binaryEffect f a b (g s)) := by
  refine mirrors_regOperands g a b s fun r => ?_
  rw [hg.reg, hg.reg, hg.setReg]
  exact .ok _

theorem Inert.unaryEffect (f : Byte → Byte) (r : Byte) :
    Mirrors g (Machine.unaryEffect f r s) (Machine.unaryEffect f r (g s)) := by
  refine mirrors_regOperand g r s fun r => ?_
  rw [hg.reg, hg.setReg]
  exact .ok _

/-- An effect does not see an inert change. -/
theorem Inert.effect (i : Instr) : Mirrors g (effect i s) (effect i (g s)) := by
  cases i with
  | add | sub | mul | bitAnd | bitOr | bitXor | shl | shr =>
    unfold Machine.effect
    exact hg.binaryEffect s _ _ _
  | bitNot | inc | dec | addi =>
    unfold Machine.effect
    exact hg.unaryEffect s _ _
  | ldi r imm8 =>
    refine mirrors_regOperand g r s fun r => ?_
    rw [hg.setReg]
    exact .ok _
  | ld a b =>
    refine mirrors_regOperands g a b s fun r => ?_
    rw [hg.reg, hg.readMem, hg.setReg]
    exact .ok _
  | st a b =>
    refine mirrors_regOperands g a b s fun r => ?_
    rw [hg.reg, hg.reg, hg.writeMem]
    exact .ok _
  | prn r | pra r =>
    refine mirrors_regOperand g r s fun r => ?_
    rw [hg.reg, hg.emit]
    exact .ok _
  | push r =>
    refine mirrors_regOperand g r s fun r => (hg.decSp s).bind fun u => ?_
    rw [hg.reg, hg.reg, hg.writeMem]
    exact .ok _
  | pop r =>
    refine mirrors_regOperand g r s fun r => ?_
    rw [hg.reg, hg.readMem, hg.setReg]
    exact hg.incSp _
  | mod a b =>
    refine mirrors_regOperands g a b s fun r => ?_
    rw [hg.reg]
    exact .ite (.error s _) (hg.binaryEffect s _ a b)
  | cmp a b =>
    refine mirrors_regOperands g a b s fun r => ?_
    rw [hg.reg, hg.reg, hg.setFl]
    exact .ok _
  | call | ret | jmp | jeq | jne | iret | hlt => exact .ok s

end

end Sys2Proof.Machine
end

section
/-! The default advance: where an instruction stands has no influence on its effect (40_dispatch.md R86; D9, D15). -/

namespace Sys2Proof.Machine

theorem inert_setPc (p : Byte) : Inert (State.setPc · p) where
  reg _ _ := rfl
  readMem _ _ := rfl
  setReg _ _ _ := rfl
  writeMem _ _ _ := rfl
  setFl _ _ := rfl
  emit _ _ _ := rfl

/-- The effect on `s` is that on `s` moved to pc 0, moved back; and an effect leaves pc. -/
theorem effect_at_pc (i : Instr) (s : State) :
    (∃ u, effect i (s.setPc 0) = .ok u ∧ u.pc = 0 ∧ effect i s = .ok (u.setPc s.pc)) ∨
      (∃ (u : State) (e : FatalError), effect i (s.setPc 0) = .error (u.fail e)) := by
  have hback : Mirrors (State.setPc · s.pc) (effect i (s.setPc 0)) (effect i s) :=
    (inert_setPc s.pc).effect (s.setPc 0) i
  have hstay : Mirrors (State.setPc · 0) (effect i (s.setPc 0)) (effect i (s.setPc 0)) :=
    (inert_setPc 0).effect (s.setPc 0) i
  rcases hback.ends with ⟨u, hzero, hmoved⟩ | ⟨u, e, hzero, -⟩
  · rw [hzero] at hstay
    rcases hstay.ends with ⟨u', hu, hu'⟩ | ⟨u', e, hu, -⟩
    · obtain rfl := Except.ok.inj hu
      exact .inl ⟨u, hzero, congrArg State.pc (Except.ok.inj hu'), hmoved⟩
    · cases hu
  · exact .inr ⟨u, e, hzero⟩

theorem trunc8_natCast (n : Nat) : trunc8 (n : Int) = BitVec.ofNat 8 n := BitVec.ofInt_natCast 8 n

/-- Settles O18: the effect is the same at pc 0, and the advance is made from pc. -/
theorem defaultAdvanceFollowsTheEffect : Obligations.DefaultAdvanceFollowsTheEffect := by
  unfold Obligations.DefaultAdvanceFollowsTheEffect
  intro i s t howns _ hzero hrunning
  rw [exec_eq_effect howns] at hzero ⊢
  have hcount := i.op.operandCount_le
  rcases effect_at_pc i s with ⟨u, heffect, hpc, hmoved⟩ | ⟨u, e, heffect⟩
  · rw [heffect] at hzero
    change complete (advance i.op.operandCount u) = .next t at hzero
    rw [advance_ok (by rw [hpc]; change 0 + 1 + _ ≤ 255; omega), complete_ok] at hzero
    obtain rfl := Host.Outcome.next.inj hzero
    rw [hmoved]
    change (_ → complete (advance i.op.operandCount (u.setPc s.pc)) = _) ∧
      (_ → complete (advance i.op.operandCount (u.setPc s.pc)) = _)
    constructor
    · intro hfits
      rw [advance_ok (s := u.setPc s.pc) hfits, complete_ok, ← trunc8_natCast]
      rfl
    · intro hpast
      rw [advance_past (s := u.setPc s.pc) hpast, complete_error]
      rfl
  · rw [heffect] at hzero
    obtain rfl := Host.Outcome.next.inj hzero
    cases hrunning

end Sys2Proof.Machine
end

section
/-! The host's moves have no influence on a Running block (60_exceptions.md R218, D32). -/

namespace Sys2Proof.Machine

/-- The state with another list of host moves. -/
def State.withHost (h : List HostAction) (s : State) : State := { s with host := h }

theorem inert_withHost (h : List HostAction) : Inert (State.withHost h) where
  reg _ _ := rfl
  readMem _ _ := rfl
  setReg _ _ _ := rfl
  writeMem _ _ _ := rfl
  setFl _ _ := rfl
  emit _ _ _ := rfl

section
variable (h : List HostAction) (s : State)

theorem advance_withHost (n : Nat) : Mirrors (State.withHost h) (advance n s) (advance n (s.withHost h)) :=
  .ite (.error s _) (.ok (s.setPc _))

theorem pushAll_withHost {reads : List (State → Byte)}
    (hreads : ∀ read ∈ reads, ∀ u : State, read (u.withHost h) = read u) :
    Mirrors (State.withHost h) (pushAll reads s) (pushAll reads (s.withHost h)) := by
  induction reads generalizing s with
  | nil => exact .ok s
  | cons read reads ih =>
    rw [pushAll, pushAll, hreads read List.mem_cons_self]
    exact ((inert_withHost h).push s _).bind fun u => ih u fun read' hr => hreads read' (List.mem_cons_of_mem _ hr)

theorem popAll_withHost {writes : List (State → Byte → State)}
    (hwrites : ∀ write ∈ writes, ∀ (u : State) v, write (u.withHost h) v = (write u v).withHost h) :
    Mirrors (State.withHost h) (popAll writes s) (popAll writes (s.withHost h)) := by
  induction writes generalizing s with
  | nil => exact .ok s
  | cons write writes ih =>
    refine (inert_withHost h).pop s fun v u => ?_
    dsimp only
    rw [hwrites write List.mem_cons_self]
    exact ih _ fun write' hw => hwrites write' (List.mem_cons_of_mem _ hw)

theorem setLatch_withHost (v : Bool) : setLatch v (s.withHost h) = (setLatch v s).withHost h := by
  rw [setLatch, setLatch, apply_ite (State.withHost h)]
  rfl

theorem interruptFrame_withHost : ∀ read ∈ interruptFrame, ∀ u : State, read (u.withHost h) = read u := by
  simp only [interruptFrame, List.forall_mem_cons, List.not_mem_nil, false_implies, implies_true, and_true]
  exact ⟨fun _ => rfl, fun _ => rfl, fun _ => rfl, fun _ => rfl, fun _ => rfl, fun _ => rfl, fun _ => rfl, fun _ => rfl⟩

theorem interruptRestore_withHost :
    ∀ write ∈ interruptRestore, ∀ (u : State) v, write (u.withHost h) v = (write u v).withHost h := by
  simp only [interruptRestore, List.forall_mem_cons, List.not_mem_nil, false_implies, implies_true, and_true]
  exact ⟨fun _ _ => rfl, fun _ _ => rfl, fun _ _ => rfl, fun _ _ => rfl, fun _ _ => rfl, fun _ _ => rfl, fun _ _ => rfl,
    fun _ _ => rfl⟩

theorem deliver_withHost (i : RegIdx) : Mirrors (State.withHost h) (deliver i s) (deliver i (s.withHost h)) := by
  rw [deliver_eq, deliver_eq]
  refine (pushAll_withHost h (clearPending i s) (interruptFrame_withHost h)).bind fun u => ?_
  obtain ⟨b, hb⟩ := vectorAddress_byte u.config i
  change Mirrors _ _ (memRead (vectorAddress u.config i) (u.withHost h) >>= _)
  rw [hb, memRead_byte, memRead_byte]
  change Mirrors _ (.ok (setLatch true (u.setPc _))) (.ok (setLatch true ((u.setPc _).withHost h)))
  rw [setLatch_withHost]
  exact .ok _

theorem interruptCheck_withHost :
    Mirrors (State.withHost h) (interruptCheck s) (interruptCheck (s.withHost h)) := by
  cases hdue : dueInterrupt s with
  | none =>
    rw [interruptCheck_of_none hdue, interruptCheck_of_none (s := s.withHost h) hdue]
    exact .ok s
  | some i =>
    rw [interruptCheck_of_some hdue, interruptCheck_of_some (s := s.withHost h) hdue]
    exact deliver_withHost h s i

theorem poll_withHost (d : Draw) : poll d (s.withHost h) = (poll d s).withHost h := by
  obtain ⟨tick, key⟩ := d
  cases tick <;> cases key <;> rfl

variable {s} {t : State}

theorem Mirrors.complete_withHost {x y : Except State State} (hxy : Mirrors (State.withHost h) x y)
    (hx : complete x = .next t) : complete y = .next (t.withHost h) := by
  cases hxy with
  | ok u => exact Host.Outcome.next.inj hx ▸ rfl
  | error u e => exact Host.Outcome.next.inj hx ▸ rfl

theorem exec_withHost {i : Instr} (hexec : exec i s = .next t) : exec i (s.withHost h) = .next (t.withHost h) := by
  cases howns : i.op.ownsPc with
  | false =>
    rw [exec_eq_effect howns] at hexec ⊢
    exact (((inert_withHost h).effect s i).bind fun u => advance_withHost h u _).complete_withHost h hexec
  | true =>
    cases i with
    | call r =>
      refine (mirrors_regOperand (State.withHost h) r s fun rr => ?_).complete_withHost h hexec
      exact .ite (.error s _) (((inert_withHost h).push s _).bind fun u => .ok (u.setPc (u.reg rr)))
    | ret => exact ((inert_withHost h).pop s fun v u => .ok (u.setPc v)).complete_withHost h hexec
    | jmp r =>
      exact (mirrors_regOperand (State.withHost h) r s fun rr => .ok (s.setPc (s.reg rr))).complete_withHost h hexec
    | jeq r =>
      refine (mirrors_regOperand (State.withHost h) r s fun rr => ?_).complete_withHost h hexec
      exact .ite (.ok (s.setPc (s.reg rr))) (advance_withHost h s 1)
    | jne r =>
      refine (mirrors_regOperand (State.withHost h) r s fun rr => ?_).complete_withHost h hexec
      exact .ite (advance_withHost h s 1) (.ok (s.setPc (s.reg rr)))
    | iret =>
      rw [exec_iret_eq] at hexec ⊢
      refine ((popAll_withHost h s (interruptRestore_withHost h)).bind fun u => ?_).complete_withHost h hexec
      rw [setLatch_withHost]
      exact .ok _
    | hlt => exact (Mirrors.ok (s.setStatus .halted)).complete_withHost h hexec
    | _ => cases howns

theorem executeOne_withHost (hone : executeOne s = .next t) : executeOne (s.withHost h) = .next (t.withHost h) := by
  cases hfetch : fetchInstr s with
  | error e =>
    rw [executeOne_of_fetch_failed hfetch] at hone
    rw [executeOne_of_fetch_failed (s := s.withHost h) hfetch]
    exact Host.Outcome.next.inj hone ▸ rfl
  | ok i =>
    rw [executeOne_of_fetched hfetch] at hone
    rw [executeOne_of_fetched (s := s.withHost h) hfetch]
    exact exec_withHost h hone

theorem cycle_withHost {d : Draw} (hcycle : cycle d s = .next t) : cycle d (s.withHost h) = .next (t.withHost h) := by
  have hcheck := interruptCheck_withHost h (poll d s)
  rw [← poll_withHost] at hcheck
  rcases hcheck.ends with ⟨u, hu, hu'⟩ | ⟨u, e, hu, hu'⟩
  · rw [cycle_of_check_ok hu] at hcycle
    rw [cycle_of_check_ok hu']
    exact executeOne_withHost h hcycle
  · rw [cycle_of_check_error hu] at hcycle
    rw [cycle_of_check_error hu']
    exact Host.Outcome.next.inj hcycle ▸ rfl

end

/-- Settles O14: no operation of a cycle reads or writes the list of the host's moves. -/
theorem hostIsInvisibleWhileRunning : Obligations.HostIsInvisibleWhileRunning := by
  unfold Obligations.HostIsInvisibleWhileRunning
  intro s t h hrunning hstep
  rw [step_of_running hrunning] at hstep
  exact (step_of_running (s := s.withHost h) hrunning).trans (cycle_withHost h (s := s.takeDraw) hstep)

end Sys2Proof.Machine
end
